-- ==== Sys2Proof/Word.lean ====
section
/-! DEFINITION. The word types: every register, memory byte, immediate, address and jump target is one byte (R5, R20,
R54), and both fields of an ALU instruction's first byte are four bits (R81). -/

namespace Sys2Proof

/-- An 8-bit value, unsigned in storage (R5, R20). -/
abbrev Byte := BitVec 8

/-- A 4-bit field: an operation code or an addressing-mode code (R81). -/
abbrev Nibble := BitVec 4

end Sys2Proof
end

