-- ==== Sys2Proof/Syntax.lean ====
section
/-! DEFINITION. The instructions: one constructor of `Instr` per row of spec/opcode_table.json, with operands resolved
(30_encoding.md R80, R82, R84; 00_scope.md R2). -/

namespace Sys2Proof

/-- The three general registers (R20). -/
inductive Reg where
  | A | B | I
  deriving DecidableEq, Repr

/-- An operand as a mode-table row names it: `imm` and `dir` are the "extra" kinds, whose byte is filled in at decode
(R82). -/
inductive OperandKind where
  | reg (r : Reg)
  | indI
  | imm
  | dir
  deriving DecidableEq, Repr

/-- A resolved operand: `imm k` and `dir a` carry their extra byte (R82, R146). -/
inductive Operand where
  | reg (r : Reg)
  | indI
  | imm (k : Byte)
  | dir (a : Byte)
  deriving DecidableEq, Repr

/-- The binary operations (R7 item 2, R114). -/
inductive BinOp where
  | add | sub | cmp | and | or | mov
  deriving DecidableEq, Repr

/-- The unary operations (R7 item 2, R114). -/
inductive UnOp where
  | inc | dec | not | shr | shl
  deriving DecidableEq, Repr

/-- The eleven ALU mnemonics, each unary or binary and never both (R6, R7 item 2). -/
inductive AluOp where
  | bin (o : BinOp)
  | un (o : UnOp)
  deriving DecidableEq, Repr

/-- The six jumps, in the order of their condition indices 0 to 5 (R91, R230). -/
inductive JumpOp where
  | jmp | jz | js | jc | jo | jp
  deriving DecidableEq, Repr

/-- The 18 instructions (R2). An ALU instruction carries resolved operands, a jump its absolute target (R84). -/
inductive Instr where
  | add (dst src : Operand)
  | sub (dst src : Operand)
  | cmp (dst src : Operand)
  | and (dst src : Operand)
  | or (dst src : Operand)
  | mov (dst src : Operand)
  | inc (dst : Operand)
  | dec (dst : Operand)
  | not (dst : Operand)
  | shr (dst : Operand)
  | shl (dst : Operand)
  | jmp (target : Byte)
  | jz (target : Byte)
  | js (target : Byte)
  | jc (target : Byte)
  | jo (target : Byte)
  | jp (target : Byte)
  | nop
  deriving DecidableEq, Repr

end Sys2Proof
end

