-- ==== Sys2Proof/Config.lean ====
section
/-! DEFINITION. What an implementation fixes: the five ISA tables, to which the source gives no numbers (R6), and the
constraints R7 puts on them. The values of Z70-REF stand in `Sys2Proof/Decode.lean`. The spec leaves no value open at
run time, so there is no free value here. -/

namespace Sys2Proof

/-- The size of the one address space, in bytes (R5, R32). -/
def memorySize : Nat := 256

/-- Is this slot marked "extra", so that an extra byte fills it in (R82)? -/
def OperandKind.isExtra : OperandKind → Bool
  | .reg _ => false
  | .indI => false
  | .imm => true
  | .dir => true

/-- The ISA tables of R6: operation codes, the binary and unary mode tables, the jump bytes and the nop byte. -/
structure IsaTables where
  opc : AluOp → Nibble
  bmode : Nibble → Option (OperandKind × OperandKind)
  umode : Nibble → Option OperandKind
  jmpop : JumpOp → Byte
  nopop : Byte

/-- The constraints R7 puts on the ISA tables, item by item. Item 2 (the unary and binary mnemonics are disjoint, and
the code alone tells which) holds of every `IsaTables`: `AluOp` is a disjoint sum and item 1 makes the code tell. -/
structure IsaTables.Valid (T : IsaTables) : Prop where
  /-- R7 item 1. -/
  opc_injective : ∀ o o' : AluOp, T.opc o = T.opc o' → o = o'
  /-- R7 item 3. -/
  bmode_one_extra : ∀ m dk sk, T.bmode m = some (dk, sk) → (dk.isExtra && sk.isExtra) = false
  /-- R7 item 4, binary rows. -/
  bmode_dst_not_imm : ∀ m sk, T.bmode m ≠ some (.imm, sk)
  /-- R7 items 4 and 5: a unary destination is a register or `[I]`. -/
  umode_dst : ∀ m k, T.umode m = some k → k.isExtra = false
  /-- R7 item 5: each of the four destinations has a code. -/
  umode_total : ∀ k : OperandKind, k.isExtra = false → ∃ m, T.umode m = some k
  /-- R7 item 5: each destination has one code only. -/
  umode_injective : ∀ m m' k, T.umode m = some k → T.umode m' = some k → m = m'
  /-- R7 item 6. -/
  bmode_injective : ∀ m m' row, T.bmode m = some row → T.bmode m' = some row → m = m'
  /-- R7 item 7: the six jump bytes are distinct. -/
  jmpop_injective : ∀ c c' : JumpOp, T.jmpop c = T.jmpop c' → c = c'
  /-- R7 item 7: the nop byte is no jump byte. -/
  nopop_not_jump : ∀ c : JumpOp, T.jmpop c ≠ T.nopop
  /-- R7 item 8, binary instructions. -/
  binary_not_reserved : ∀ (o : BinOp) m row, T.bmode m = some row →
    (T.opc (.bin o) ++ m : Byte) ≠ T.nopop ∧ ∀ c, (T.opc (.bin o) ++ m : Byte) ≠ T.jmpop c
  /-- R7 item 8, unary instructions. -/
  unary_not_reserved : ∀ (o : UnOp) m k, T.umode m = some k →
    (T.opc (.un o) ++ m : Byte) ≠ T.nopop ∧ ∀ c, (T.opc (.un o) ++ m : Byte) ≠ T.jmpop c
  /-- R7 item 9: the rows of the source's worked examples. -/
  bmode_examples : ∀ row ∈ ([(.reg .A, .imm), (.reg .B, .imm), (.reg .I, .imm), (.reg .A, .reg .B),
    (.indI, .reg .A), (.reg .A, .indI)] : List (OperandKind × OperandKind)), ∃ m, T.bmode m = some row

end Sys2Proof
end

