-- ==== Sys2Proof/WellFormed.lean ====
section
/-! DEFINITION. Which instructions the ISA tables can express: an ALU instruction whose operand kinds are a row of its
mode table (R115, R116; R92, R93 for Z70-REF). Every jump and `nop` is expressible, with any target (R95, R231). -/

namespace Sys2Proof

/-- The kind of a resolved operand: what a mode-table slot is compared with (R116). -/
def Operand.kind : Operand → OperandKind
  | .reg r => .reg r
  | .indI => .indI
  | .imm _ => .imm
  | .dir _ => .dir

/-- The destination operand of an ALU instruction (R87, R88). -/
def Instr.dst : Instr → Option Operand
  | .add d _ | .sub d _ | .cmp d _ | .and d _ | .or d _ | .mov d _ => some d
  | .inc d | .dec d | .not d | .shr d | .shl d => some d
  | .jmp _ | .jz _ | .js _ | .jc _ | .jo _ | .jp _ | .nop => none

/-- The source operand of a binary instruction (R87). -/
def Instr.src : Instr → Option Operand
  | .add _ o | .sub _ o | .cmp _ o | .and _ o | .or _ o | .mov _ o => some o
  | .inc _ | .dec _ | .not _ | .shr _ | .shl _ => none
  | .jmp _ | .jz _ | .js _ | .jc _ | .jo _ | .jp _ | .nop => none

/-- The sixteen mode codes in increasing order (R115, R116). -/
def allNibbles : List Nibble :=
  [0, 1, 2, 3, 4, 5, 6, 7, 8, 9, 10, 11, 12, 13, 14, 15]

/-- Is the operand pair a row of `BMODE` (R116)? -/
def IsaTables.hasBinary (T : IsaTables) (d s : Operand) : Bool :=
  allNibbles.any fun m => T.bmode m == some (d.kind, s.kind)

/-- Is the operand a row of `UMODE` (R115)? -/
def IsaTables.hasUnary (T : IsaTables) (d : Operand) : Bool :=
  allNibbles.any fun m => T.umode m == some d.kind

/-- The instruction is expressible under the tables: its operands match a mode row. -/
def Instr.wf (T : IsaTables) : Instr → Bool
  | .add d s => T.hasBinary d s
  | .sub d s => T.hasBinary d s
  | .cmp d s => T.hasBinary d s
  | .and d s => T.hasBinary d s
  | .or d s => T.hasBinary d s
  | .mov d s => T.hasBinary d s
  | .inc d => T.hasUnary d
  | .dec d => T.hasUnary d
  | .not d => T.hasUnary d
  | .shr d => T.hasUnary d
  | .shl d => T.hasUnary d
  | .jmp _ => true
  | .jz _ => true
  | .js _ => true
  | .jc _ => true
  | .jo _ => true
  | .jp _ => true
  | .nop => true

end Sys2Proof
end

