-- ==== Sys2Proof/Decode.lean ====
section
/-! DEFINITION. The reference values of the ISA tables (Z70-REF, R90-R93), the decoder over any tables (R83, R85-R89),
and after it the encoder (R81, R115, R116, R119-R121). The decoder is total on any bytes and rejects by name. -/

namespace Sys2Proof

/-! ## Z70-REF -/

/-- The operation codes of Z70-REF (R90). -/
def refOpc : AluOp → Nibble
  | .bin .add => 0x1
  | .bin .sub => 0x2
  | .bin .cmp => 0x3
  | .bin .and => 0x4
  | .bin .or => 0x5
  | .bin .mov => 0x6
  | .un .inc => 0x7
  | .un .dec => 0x8
  | .un .not => 0x9
  | .un .shr => 0xA
  | .un .shl => 0xB

/-- The rows of the binary mode table of Z70-REF, codes 0x0 to 0xF in order (R92). -/
def refBmodeRows : List (OperandKind × OperandKind) :=
  [(.reg .A, .reg .B), (.reg .A, .reg .I), (.reg .A, .indI), (.reg .A, .imm), (.reg .A, .dir),
   (.reg .B, .reg .A), (.reg .B, .reg .I), (.reg .B, .indI), (.reg .B, .imm), (.reg .B, .dir),
   (.reg .I, .reg .A), (.reg .I, .reg .B), (.reg .I, .imm),
   (.indI, .reg .A), (.indI, .reg .B), (.dir, .reg .A)]

/-- The rows of the unary mode table of Z70-REF, codes 0x0 to 0x3; the other codes are undefined (R93). -/
def refUmodeRows : List OperandKind :=
  [.reg .A, .reg .B, .reg .I, .indI]

/-- The jump bytes of Z70-REF (R91). -/
def refJmpop : JumpOp → Byte
  | .jmp => 0xF0
  | .jz => 0xF1
  | .js => 0xF2
  | .jc => 0xF3
  | .jo => 0xF4
  | .jp => 0xF5

/-- Z70-REF, the spec's own instantiation of the ISA tables (R6, R90-R93). -/
def z70ref : IsaTables where
  opc := refOpc
  bmode m := refBmodeRows[m.toNat]?
  umode m := refUmodeRows[m.toNat]?
  jmpop := refJmpop
  nopop := 0xFF

/-! ## Instructions by operation and operands -/

/-- The binary instruction of an operation and its operands. -/
def Instr.binary : BinOp → Operand → Operand → Instr
  | .add, d, s => .add d s
  | .sub, d, s => .sub d s
  | .cmp, d, s => .cmp d s
  | .and, d, s => .and d s
  | .or, d, s => .or d s
  | .mov, d, s => .mov d s

/-- The unary instruction of an operation and its operand. -/
def Instr.unary : UnOp → Operand → Instr
  | .inc, d => .inc d
  | .dec, d => .dec d
  | .not, d => .not d
  | .shr, d => .shr d
  | .shl, d => .shl d

/-- The jump of a condition and its target. -/
def Instr.jump : JumpOp → Byte → Instr
  | .jmp, t => .jmp t
  | .jz, t => .jz t
  | .js, t => .js t
  | .jc, t => .jc t
  | .jo, t => .jo t
  | .jp, t => .jp t

/-! ## The decoder -/

/-- The binary operations, in the order of R85. -/
def allBinOps : List BinOp := [.add, .sub, .cmp, .and, .or, .mov]

/-- The unary operations, in the order of R85. -/
def allUnOps : List UnOp := [.inc, .dec, .not, .shr, .shl]

/-- The jumps, in the order of their condition indices (R91). -/
def allJumpOps : List JumpOp := [.jmp, .jz, .js, .jc, .jo, .jp]

/-- What a legal first byte decodes to (R85). -/
inductive Form where
  | nop
  | jump (c : JumpOp)
  | binary (o : BinOp) (dk sk : OperandKind)
  | unary (o : UnOp) (dk : OperandKind)
  deriving DecidableEq, Repr

/-- Why a first byte is illegal (R85): an unassigned operation code, or a mode code with no row. -/
inductive IllegalCause where
  | illegalOpcode
  | illegalMode
  deriving DecidableEq, Repr

/-- The operation-code field `b0[7:4]` (R81). -/
def opcodeField (b0 : Byte) : Nibble := b0.extractLsb' 4 4

/-- The addressing-mode field `b0[3:0]` (R81). -/
def modeField (b0 : Byte) : Nibble := b0.extractLsb' 0 4

/-- The first byte of an ALU instruction: `opcode<<4 | mode` (R81, R119). -/
def aluFirstByte (opcode mode : Nibble) : Byte := opcode ++ mode

/-- The decoder of the first byte, with the tests in the order of R85. -/
def decodeFirst (T : IsaTables) (b0 : Byte) : Except IllegalCause Form :=
  if b0 = T.nopop then .ok .nop
  else match allJumpOps.find? (fun c => T.jmpop c == b0) with
    | some c => .ok (.jump c)
    | none =>
      match allBinOps.find? (fun o => T.opc (.bin o) == opcodeField b0) with
      | some o =>
        match T.bmode (modeField b0) with
        | some (dk, sk) => .ok (.binary o dk sk)
        | none => .error .illegalMode
      | none =>
        match allUnOps.find? (fun o => T.opc (.un o) == opcodeField b0) with
        | some o =>
          match T.umode (modeField b0) with
          | some dk => .ok (.unary o dk)
          | none => .error .illegalMode
        | none => .error .illegalOpcode

/-- Does a second byte follow: a jump's target (R84), or the extra byte of a row with an extra slot (R83)? -/
def Form.hasSecondByte : Form → Bool
  | .nop => false
  | .jump _ => true
  | .binary _ dk sk => dk.isExtra || sk.isExtra
  | .unary _ dk => dk.isExtra

/-- The length of an instruction follows from its first byte alone (R86). -/
def Form.length (f : Form) : Nat := if f.hasSecondByte then 2 else 1

/-- `resolve` of R146: the extra byte `x` fills in an `imm` or `dir` slot. -/
def OperandKind.resolve (x : Byte) : OperandKind → Operand
  | .reg r => .reg r
  | .indI => .indI
  | .imm => .imm x
  | .dir => .dir x

/-- The instruction of a decoded first byte and its second byte `x` (ignored where there is none). A row has at most
one extra slot (R7 item 3), so one byte serves both slots. -/
def Form.toInstr (x : Byte) : Form → Instr
  | .nop => .nop
  | .jump c => .jump c x
  | .binary o dk sk => .binary o (dk.resolve x) (sk.resolve x)
  | .unary o dk => .unary o (dk.resolve x)

/-- Why bytes are no instruction: an illegal first byte, or the bytes end before the instruction does. -/
inductive DecodeError where
  | illegal (c : IllegalCause) (b0 : Byte)
  | truncated
  deriving DecidableEq, Repr

/-- The decoder over any tables: the first instruction of a sequence of bytes, and the bytes after it. -/
def decodeWith (T : IsaTables) : List Byte → Except DecodeError (Instr × List Byte)
  | [] => .error .truncated
  | b0 :: rest =>
    match decodeFirst T b0 with
    | .error c => .error (.illegal c b0)
    | .ok f =>
      if f.hasSecondByte then
        match rest with
        | [] => .error .truncated
        | x :: rest' => .ok (f.toInstr x, rest')
      else .ok (f.toInstr 0, rest)

/-- The decoder of Z70-REF. -/
def decode (bytes : List Byte) : Except DecodeError (Instr × List Byte) := decodeWith z70ref bytes

/-! ## The encoder -/

/-- The mode code of a binary operand pair: the first `BMODE` row that matches, in increasing code order (R116). -/
def findBinaryMode (T : IsaTables) (d s : Operand) : Option Nibble :=
  allNibbles.find? fun m => T.bmode m == some (d.kind, s.kind)

/-- The mode code of a unary operand: the first `UMODE` row that matches, in increasing code order (R115). -/
def findUnaryMode (T : IsaTables) (d : Operand) : Option Nibble :=
  allNibbles.find? fun m => T.umode m == some d.kind

/-- The extra byte an operand puts into the instruction, if it is an extra kind (R83, R116). -/
def Operand.extraBytes : Operand → List Byte
  | .reg _ => []
  | .indI => []
  | .imm k => [k]
  | .dir a => [a]

/-- The bytes of a binary instruction, or none where no addressing mode matches (R116, R119). -/
def encodeBinary (T : IsaTables) (o : BinOp) (d s : Operand) : Option (List Byte) :=
  (findBinaryMode T d s).map fun m => aluFirstByte (T.opc (.bin o)) m :: (d.extraBytes ++ s.extraBytes)

/-- The bytes of a unary instruction, or none where no addressing mode matches (R115, R119). -/
def encodeUnary (T : IsaTables) (o : UnOp) (d : Operand) : Option (List Byte) :=
  (findUnaryMode T d).map fun m => aluFirstByte (T.opc (.un o)) m :: d.extraBytes

/-- The encoder over any tables; none where no addressing mode matches (R119-R121). -/
def encodeWith (T : IsaTables) : Instr → Option (List Byte)
  | .add d s => encodeBinary T .add d s
  | .sub d s => encodeBinary T .sub d s
  | .cmp d s => encodeBinary T .cmp d s
  | .and d s => encodeBinary T .and d s
  | .or d s => encodeBinary T .or d s
  | .mov d s => encodeBinary T .mov d s
  | .inc d => encodeUnary T .inc d
  | .dec d => encodeUnary T .dec d
  | .not d => encodeUnary T .not d
  | .shr d => encodeUnary T .shr d
  | .shl d => encodeUnary T .shl d
  | .jmp t => some [T.jmpop .jmp, t]
  | .jz t => some [T.jmpop .jz, t]
  | .js t => some [T.jmpop .js, t]
  | .jc t => some [T.jmpop .jc, t]
  | .jo t => some [T.jmpop .jo, t]
  | .jp t => some [T.jmpop .jp, t]
  | .nop => some [T.nopop]

/-- The encoder of Z70-REF. -/
def encode (i : Instr) : Option (List Byte) := encodeWith z70ref i

/-! ## The opcode table's words -/

/-- The two bytes of an opcode-table word `w` of `nbits` bits, the first at bits 7..0; bits above `nbits` are 0. -/
def tableBytes (nbits w : Nat) : List Byte :=
  let v := w % 2 ^ nbits
  [BitVec.ofNat 8 v, BitVec.ofNat 8 (v / 256)]

/-- The instruction the decoder reads from an opcode-table word. -/
def decodeTableWord (nbits w : Nat) : Option Instr :=
  match decode (tableBytes nbits w) with
  | .ok (i, _) => some i
  | .error _ => none

end Sys2Proof
end

