-- ==== Sys2Proof/Machine/State.lean ====
section
/-! DEFINITION. The machine state as plain data: registers, FLAGS, pc, memory, PEND, the fault record and the label table
(R20-R34), the reasons a step or a launch can stop, and the state after reset. -/

namespace Sys2Proof.Machine

/-- The causes of a core fault (R261). -/
inductive FaultCause where
  | fetchPastEnd
  | illegalOpcode
  | illegalMode
  | constantWrite
  deriving DecidableEq, Repr

/-- The info of a fault record: the address of the failed read, or the first byte (R261). -/
inductive FaultInfo where
  | address (a : Nat)
  | firstByte (b : Byte)
  deriving DecidableEq, Repr

/-- The fault record: cause, address `pc0` of the faulting instruction, and the cause's info (R33, R262). -/
structure FaultRecord where
  cause : FaultCause
  pc0 : Nat
  info : FaultInfo
  deriving DecidableEq, Repr

/-- Assembly text and label names, as characters (R110, R123). -/
abbrev Text := List Char

/-- The label table: names with their addresses 0..256 (R118, R273). -/
abbrev LabelTable := List (Text × Nat)

/-- The 256-byte memory as (address, byte) pairs: addresses strictly rising, and no pair holds the byte that an
unlisted address reads as (R32; `Memory.wf` says so). -/
abbrev Memory := List Host.Cell

/-- The machine state (R20-R33). The run status is derived (`State.status`). -/
structure State where
  /-- Register A (R20). -/
  regA : Byte
  /-- Register B (R20). -/
  regB : Byte
  /-- Register I, also the address of `[I]` (R20, R22). -/
  regI : Byte
  /-- FLAGS: OF 7, CF 6, ZF 5, PF 4, SF 3, bits 2..0 always zero (R29). -/
  flags : Byte
  /-- The program counter, 0..256 (R24). -/
  pc : Nat
  /-- The memory M (R32). -/
  mem : Memory
  /-- The code boundary PEND, an integer in 0..256 fixed for the run (R27). -/
  pend : Fin 257
  /-- The fault record, present exactly in the Faulted status (R28, R33, R262). -/
  fault : Option FaultRecord
  /-- The label table `new_cpu` was given; no rule of execution reads it (R33, R292). -/
  labels : LabelTable
  deriving DecidableEq, Repr

/-- The run status (R28). -/
inductive Status where
  | running
  | halted
  | faulted
  deriving DecidableEq, Repr

/-- Why a requested step does not happen. A fault of the CORE is not here: taking one is a next state (R262). -/
inductive Fault where
  /-- Raised by `step` in the Faulted status, where no step exists; `r` is the first fault record, which stays (R154).
  SAFE: the spec gives no step here. -/
  | alreadyFaulted (r : FaultRecord)
  deriving DecidableEq, Repr

/-- Why the model answers nothing. -/
inductive Refusal where
  /-- An instruction with no meaning in the model, raised by an arm of `exec` only; no arm does. SAFE. -/
  | notModelled (mnemonic : String)
  /-- Raised by `newCpu` when the image is not exactly 256 bytes: no core is constructed (R293). SAFE. -/
  | launchImageSize (size : Nat)
  /-- Raised by `newCpu` when PEND is over 256: no core is constructed (R293). SAFE. -/
  | launchPend (pend : Nat)
  deriving DecidableEq, Repr

/-- What an operation on the machine answers: the host's three outcomes. -/
abbrev Result := Host.Outcome State Fault Refusal

/-- The state after reset (R34, R290): construction with the image, PEND and label table of the empty program, whose
`code_end` is 0 (R125). A program is loaded from outside (R292; log entry 2). -/
def State.reset : State where
  regA := 0x00
  regB := 0x00
  regI := 0x00
  flags := 0x00
  pc := 0
  mem := []
  pend := 0
  fault := none
  labels := []

end Sys2Proof.Machine
end

