-- ==== Sys2Proof/Machine/Ops.lean ====
section
/-! DEFINITION. The named operations over memory and registers, the run status, and the one shared operation that takes a
fault. No return from a fault exists (R265), so none is defined. -/

namespace Sys2Proof.Machine

/-! ## Memory (20_memory.md) -/

/-- What an address that no pair lists reads as: the byte of the image the assembler does not write (R34, R124). -/
def unlistedByte : Byte := 0x00

/-- `MemRead` (R51): the byte at an address. -/
def Memory.read : Memory → Nat → Byte
  | [], _ => unlistedByte
  | (k, w) :: m, a => if k = a then w else Memory.read m a

/-- A pair in front of a memory, unless it holds what an unlisted address reads as. -/
def Memory.cons (a : Nat) (v : Byte) (m : Memory) : Memory :=
  if v = unlistedByte then m else (a, v) :: m

/-- `MemWrite` (R52): one byte changes and no other; the canonical form stays. -/
def Memory.write : Memory → Nat → Byte → Memory
  | [], a, v => Memory.cons a v []
  | (k, w) :: m, a, v =>
    if k < a then (k, w) :: Memory.write m a v
    else if k = a then Memory.cons a v m
    else Memory.cons a v ((k, w) :: m)

/-- The canonical form: addresses strictly rising and in the address space, no pair equal to what an unlisted address
reads as (R32, R50). -/
abbrev Memory.wf (m : Memory) : Prop :=
  m.Pairwise (fun c c' => c.1 < c'.1) ∧ ∀ c ∈ m, c.1 < memorySize ∧ c.2 ≠ unlistedByte

/-- The memory that holds `bytes` from address `a` upward and `unlistedByte` elsewhere (R32, R124). -/
def Memory.ofBytesAt : Nat → List Byte → Memory
  | _, [] => []
  | a, b :: bytes => Memory.cons a b (Memory.ofBytesAt (a + 1) bytes)

/-- The memory that holds the bytes of an image from address 0 upward (R292). -/
def Memory.ofImage (image : List Byte) : Memory := Memory.ofBytesAt 0 image

/-- The bytes of the memory, address 0 first: the host's memory snapshot (R275). -/
def Memory.toImage (m : Memory) : List Byte := (List.range memorySize).map (Memory.read m)

/-! ## Registers (R20-R22) -/

/-- `x[r]` (R9, R20). -/
def State.reg (s : State) : Reg → Byte
  | .A => s.regA
  | .B => s.regB
  | .I => s.regI

/-- `x[r] <- v` (R9, R20). -/
def State.setReg (s : State) (v : Byte) : Reg → State
  | .A => { s with regA := v }
  | .B => { s with regB := v }
  | .I => { s with regI := v }

/-- `MemWrite` on the state's memory (R52). -/
def State.store (s : State) (a : Nat) (v : Byte) : State := { s with mem := s.mem.write a v }

/-- Set the program counter (R24). -/
def State.setPc (s : State) (pc : Nat) : State := { s with pc := pc }

/-- Set FLAGS; only the flag hook's result is ever written (R30, R150). -/
def State.setFlags (s : State) (flags : Byte) : State := { s with flags := flags }

/-! ## Status (R28) -/

/-- The run status (R28). -/
def State.status (s : State) : Status :=
  if s.fault.isSome then .faulted
  else if s.pend.val ≤ s.pc then .halted
  else .running

/-! ## Taking a fault (R261, R262) -/

/-- The code of a cause (R261). -/
def FaultCause.code : FaultCause → Nat
  | .fetchPastEnd => 1
  | .illegalOpcode => 2
  | .illegalMode => 3
  | .constantWrite => 4

/-- `raise Fault(cause, info)` from the state before the step: every write of the step is discarded, pc stays at the
instruction, the fault record is set, and so the status becomes Faulted (R262). -/
def State.raise (s : State) (cause : FaultCause) (info : FaultInfo) : State :=
  { s with fault := some { cause := cause, pc0 := s.pc, info := info } }

end Sys2Proof.Machine
end

