-- ==== Sys2Proof/Machine/Flags.lean ====
section
/-! DEFINITION. The flag register's layout (R29), the flag hook (R150, R151), signed overflow (R10, R149), and the ALU: for
each operation its result, its write enable and the new FLAGS (R148). -/

namespace Sys2Proof.Machine

/-! ## FLAGS (R29) -/

/-- Bit 7 of FLAGS: overflow (R29). -/
def flagOF (f : Byte) : Bool := f.getLsbD 7

/-- Bit 6 of FLAGS: carry or borrow (R29). -/
def flagCF (f : Byte) : Bool := f.getLsbD 6

/-- Bit 5 of FLAGS: zero (R29). -/
def flagZF (f : Byte) : Bool := f.getLsbD 5

/-- Bit 4 of FLAGS: parity (R29). -/
def flagPF (f : Byte) : Bool := f.getLsbD 4

/-- Bit 3 of FLAGS: sign (R29). -/
def flagSF (f : Byte) : Bool := f.getLsbD 3

/-- Bits 2..0 of FLAGS, unused and always zero (R29). -/
def flagReserved (f : Byte) : BitVec 3 := f.extractLsb' 0 3

/-- FLAGS with the five flags given and bits 2..0 as they were in `f` (R29, R150). -/
def packFlags (f : Byte) (o c z p g : Bool) : Byte :=
  BitVec.ofBool o ++ BitVec.ofBool c ++ BitVec.ofBool z ++ BitVec.ofBool p ++ BitVec.ofBool g ++ flagReserved f

/-- The number of 1 bits in a byte (R9). -/
def popcount (v : Byte) : Nat := ((List.range 8).map fun k => (v.getLsbD k).toNat).sum

/-- Parity: 1 when the number of set bits is even (R151). -/
def parity (v : Byte) : Bool := popcount v % 2 == 0

/-- The flag hook `set_flags(r, carry, overflow, logical)` (R150). -/
def hook (f r : Byte) (carry overflow logical : Bool) : Byte :=
  packFlags f (!logical && overflow) (!logical && carry) (r == 0) (parity r) (r.getLsbD 7)

/-! ## Signed overflow (R10, R149) -/

/-- The two's-complement reading of a byte (R10). -/
def signed8 (v : Byte) : Int := if v.toNat ≥ 128 then (v.toNat : Int) - 256 else v.toNat

/-- `add_ov`: the true signed sum leaves [-128, 127] (R149). -/
def addOv (d s : Byte) : Bool := !decide (-128 ≤ signed8 d + signed8 s ∧ signed8 d + signed8 s ≤ 127)

/-- `sub_ov`: the true signed difference leaves [-128, 127] (R149). -/
def subOv (d s : Byte) : Bool := !decide (-128 ≤ signed8 d - signed8 s ∧ signed8 d - signed8 s ≤ 127)

/-! ## The ALU (R148) -/

/-- The ALU's outputs: the result, the destination write enable, and FLAGS after the operation (R148). -/
structure AluOut where
  result : Byte
  wen : Bool
  flags : Byte
  deriving DecidableEq, Repr

/-- ADD (R171). -/
def aluAdd (d s f : Byte) : AluOut :=
  let sum := d.toNat + s.toNat
  let r := BitVec.ofNat 8 sum
  { result := r, wen := true, flags := hook f r (decide (sum > 255)) (addOv d s) false }

/-- SUB: the difference, the borrow as carry, the signed overflow; `wen` tells `sub` from `cmp` (R172, R173). -/
def aluSub (wen : Bool) (d s f : Byte) : AluOut :=
  let r := d - s
  { result := r, wen := wen, flags := hook f r (decide (d.toNat < s.toNat)) (subOv d s) false }

/-- AND: a logical operation, so CF and OF are forced to 0 (R174). -/
def aluAnd (d s f : Byte) : AluOut :=
  let r := d &&& s
  { result := r, wen := true, flags := hook f r false false true }

/-- OR: a logical operation, so CF and OF are forced to 0 (R175). -/
def aluOr (d s f : Byte) : AluOut :=
  let r := d ||| s
  { result := r, wen := true, flags := hook f r false false true }

/-- PASS: the source unchanged, no flag written (R176). -/
def aluPass (s f : Byte) : AluOut := { result := s, wen := true, flags := f }

/-- INC: CF is kept by passing the old CF as carry (R201). -/
def aluInc (d f : Byte) : AluOut :=
  let r := d + 1
  { result := r, wen := true, flags := hook f r (flagCF f) (addOv d 1) false }

/-- DEC: CF is kept by passing the old CF as carry (R202). -/
def aluDec (d f : Byte) : AluOut :=
  let r := d - 1
  { result := r, wen := true, flags := hook f r (flagCF f) (subOv d 1) false }

/-- NOT: the complement, no flag written (R203). -/
def aluNot (d f : Byte) : AluOut := { result := ~~~d, wen := true, flags := f }

/-- SHR: carry is the old bit 0 and overflow the old bit 7 (R204). -/
def aluShr (d f : Byte) : AluOut :=
  let r := d >>> 1
  { result := r, wen := true, flags := hook f r (d.getLsbD 0) (d.getLsbD 7) false }

/-- SHL: carry is the old bit 7 and overflow that carry xor the new bit 7 (R205, C1). -/
def aluShl (d f : Byte) : AluOut :=
  let r := d <<< 1
  let c := d.getLsbD 7
  { result := r, wen := true, flags := hook f r c (c ^^ r.getLsbD 7) false }

/-! ## Jump conditions (R230) -/

/-- `taken(c, F)` (R230). -/
def taken : JumpOp → Byte → Bool
  | .jmp, _ => true
  | .jz, f => flagZF f
  | .js, f => flagSF f
  | .jc, f => flagCF f
  | .jo, f => flagOF f
  | .jp, f => flagPF f

end Sys2Proof.Machine
end

