-- ==== Sys2Proof/Machine/Operands.lean ====
section
/-! DEFINITION. The addressing unit: where an operand lies, reading and writing it (R143-R145), how many bytes an
instruction has (R86, R117), and the two shared endings of a meaning: committing an ALU result, and branching. -/

namespace Sys2Proof.Machine

/-- The location an operand names (R143): a register, a memory address, or none (a read-only literal). -/
inductive Location where
  | reg (r : Reg)
  | mem (a : Nat)
  | literal (k : Byte)
  deriving DecidableEq, Repr

/-- The location of a resolved operand: `[I]` is addressed by `x[I]` as it is before the step's write (R143, R11). -/
def locate (s : State) : Operand → Location
  | .reg r => .reg r
  | .indI => .mem s.regI.toNat
  | .imm k => .literal k
  | .dir a => .mem a.toNat

/-- The value at a location. -/
def readLocation (s : State) : Location → Byte
  | .reg r => s.reg r
  | .mem a => s.mem.read a
  | .literal k => k

/-- `val` (R144). -/
def readOperand (s : State) (o : Operand) : Byte := readLocation s (locate s o)

/-- Write a location; none for a literal, which is read-only. -/
def writeLocation (s : State) (v : Byte) : Location → Option State
  | .reg r => some (s.setReg v r)
  | .mem a => some (s.store a v)
  | .literal _ => none

/-- `write` (R145); none is the write to a constant. -/
def writeOperand (s : State) (v : Byte) (o : Operand) : Option State := writeLocation s v (locate s o)

/-- The number of extra bytes an operand puts into its instruction (R82, R83). -/
def operandBytes (o : Operand) : Nat := if o.kind.isExtra then 1 else 0

/-- The number of bytes of a binary instruction with these operands (R86, R117). -/
def binarySize (d src : Operand) : Nat := 1 + operandBytes d + operandBytes src

/-- The number of bytes of a unary instruction with this operand (R86, R117). -/
def unarySize (d : Operand) : Nat := 1 + operandBytes d

/-- The end of every ALU meaning: the result goes to the destination where the ALU enables it, FLAGS becomes the ALU's,
and pc moves past the instruction's `size` bytes (R25, R148). A write to a constant raises ConstantWrite with the
instruction's first byte, and nothing else happens (R145, R262). -/
def commit (size : Nat) (d : Operand) (out : AluOut) (s : State) : Result :=
  if out.wen then
    match writeOperand s out.result d with
    | some t => .next ((t.setFlags out.flags).setPc (s.pc + size))
    | none => .next (s.raise .constantWrite (.firstByte (s.mem.read s.pc)))
  else .next ((s.setFlags out.flags).setPc (s.pc + size))

/-- The end of every jump meaning: to the target where the jump is taken, else past its two bytes (R25, R230). -/
def branch (c : JumpOp) (target : Byte) (s : State) : Result :=
  .next (s.setPc (if taken c s.flags then target.toNat else s.pc + 2))

end Sys2Proof.Machine
end

