-- ==== Sys2Proof/Machine/Binary.lean ====
section
/-! DEFINITION. The meanings of the binary instructions (41_binary.md). Each reads all its operands before it writes
(R170). -/

namespace Sys2Proof.Machine

/-- `add dst, src` (R171). -/
def execAdd (d src : Operand) (s : State) : Result :=
  commit (binarySize d src) d (aluAdd (readOperand s d) (readOperand s src) s.flags) s

/-- `sub dst, src` (R172). -/
def execSub (d src : Operand) (s : State) : Result :=
  commit (binarySize d src) d (aluSub true (readOperand s d) (readOperand s src) s.flags) s

/-- `cmp dst, src`: the flags of `sub`, and no write (R173). -/
def execCmp (d src : Operand) (s : State) : Result :=
  commit (binarySize d src) d (aluSub false (readOperand s d) (readOperand s src) s.flags) s

/-- `and dst, src` (R174). -/
def execAnd (d src : Operand) (s : State) : Result :=
  commit (binarySize d src) d (aluAnd (readOperand s d) (readOperand s src) s.flags) s

/-- `or dst, src` (R175). -/
def execOr (d src : Operand) (s : State) : Result :=
  commit (binarySize d src) d (aluOr (readOperand s d) (readOperand s src) s.flags) s

/-- `mov dst, src`: the destination is written but not read (R176). -/
def execMov (d src : Operand) (s : State) : Result :=
  commit (binarySize d src) d (aluPass (readOperand s src) s.flags) s

end Sys2Proof.Machine
end

