-- ==== Sys2Proof/Machine/Control.lean ====
section
/-! DEFINITION. The meanings of the six jumps and of `nop` (43_control.md). -/

namespace Sys2Proof.Machine

/-- `jmp L` (R232). -/
def execJmp (t : Byte) (s : State) : Result := branch .jmp t s

/-- `jz L` (R233). -/
def execJz (t : Byte) (s : State) : Result := branch .jz t s

/-- `js L` (R234). -/
def execJs (t : Byte) (s : State) : Result := branch .js t s

/-- `jc L` (R235). -/
def execJc (t : Byte) (s : State) : Result := branch .jc t s

/-- `jo L` (R236). -/
def execJo (t : Byte) (s : State) : Result := branch .jo t s

/-- `jp L` (R237). -/
def execJp (t : Byte) (s : State) : Result := branch .jp t s

/-- `nop`: only the pc advance of its one byte (R238). -/
def execNop (s : State) : Result := .next (s.setPc (s.pc + 1))

end Sys2Proof.Machine
end

