-- ==== Sys2Proof/Machine/Unary.lean ====
section
/-! DEFINITION. The meanings of the unary instructions (42_unary.md). Each reads its destination and writes it (R88). -/

namespace Sys2Proof.Machine

/-- `inc dst` (R201). -/
def execInc (d : Operand) (s : State) : Result :=
  commit (unarySize d) d (aluInc (readOperand s d) s.flags) s

/-- `dec dst` (R202). -/
def execDec (d : Operand) (s : State) : Result :=
  commit (unarySize d) d (aluDec (readOperand s d) s.flags) s

/-- `not dst` (R203). -/
def execNot (d : Operand) (s : State) : Result :=
  commit (unarySize d) d (aluNot (readOperand s d) s.flags) s

/-- `shr dst` (R204). -/
def execShr (d : Operand) (s : State) : Result :=
  commit (unarySize d) d (aluShr (readOperand s d) s.flags) s

/-- `shl dst` (R205). -/
def execShl (d : Operand) (s : State) : Result :=
  commit (unarySize d) d (aluShl (readOperand s d) s.flags) s

end Sys2Proof.Machine
end

