-- ==== Sys2Proof/Machine/Dispatch.lean ====
section
/-! DEFINITION. The dispatch: each instruction has exactly one handler (R147). -/

namespace Sys2Proof.Machine

def exec (i : Instr) (s : State) : Host.Outcome State Fault Refusal :=
  match i with
  | .add d src => Sys2Proof.Machine.execAdd d src s
  | .sub d src => Sys2Proof.Machine.execSub d src s
  | .cmp d src => Sys2Proof.Machine.execCmp d src s
  | .and d src => Sys2Proof.Machine.execAnd d src s
  | .or d src => Sys2Proof.Machine.execOr d src s
  | .mov d src => Sys2Proof.Machine.execMov d src s
  | .inc d => Sys2Proof.Machine.execInc d s
  | .dec d => Sys2Proof.Machine.execDec d s
  | .not d => Sys2Proof.Machine.execNot d s
  | .shr d => Sys2Proof.Machine.execShr d s
  | .shl d => Sys2Proof.Machine.execShl d s
  | .jmp t => Sys2Proof.Machine.execJmp t s
  | .jz t => Sys2Proof.Machine.execJz t s
  | .js t => Sys2Proof.Machine.execJs t s
  | .jc t => Sys2Proof.Machine.execJc t s
  | .jo t => Sys2Proof.Machine.execJo t s
  | .jp t => Sys2Proof.Machine.execJp t s
  | .nop => Sys2Proof.Machine.execNop s

end Sys2Proof.Machine
end

