-- ==== Sys2Proof/Machine/Fetch.lean ====
section
/-! DEFINITION. The fetch unit: the checked instruction-stream read (R141) and the fetch and decode of one instruction, with
its faults in the order of R263 (R142). Placing an instruction for the next fetch stands here too. -/

namespace Sys2Proof.Machine

/-- Why no instruction could be fetched: the cause and its info (R261). -/
structure FetchFault where
  cause : FaultCause
  info : FaultInfo
  deriving DecidableEq, Repr

/-- The check and read of `FetchByte` at an address: an instruction-stream read at or beyond PEND fails (R141). -/
def fetchByte (s : State) (a : Nat) : Except FetchFault Byte :=
  if s.pend.val ≤ a then .error { cause := .fetchPastEnd, info := .address a } else .ok (s.mem.read a)

/-- The cause of an illegal first byte (R85, R261). -/
def illegalFault (b0 : Byte) : IllegalCause → FetchFault
  | .illegalOpcode => { cause := .illegalOpcode, info := .firstByte b0 }
  | .illegalMode => { cause := .illegalMode, info := .firstByte b0 }

/-- Fetch and decode the instruction at pc: its first byte, then the byte after it where the form has one (R142, R146,
R230). -/
def fetchInstr (T : IsaTables) (s : State) : Except FetchFault Instr :=
  match fetchByte s s.pc with
  | .error e => .error e
  | .ok b0 =>
    match decodeFirst T b0 with
    | .error c => .error (illegalFault b0 c)
    | .ok f =>
      if f.hasSecondByte then
        match fetchByte s (s.pc + 1) with
        | .error e => .error e
        | .ok x => .ok (f.toInstr x)
      else .ok (f.toInstr 0)

/-- PEND moved up, where it is lower, so that the byte at `a` (an address) can be fetched. -/
def coverAddress (pend : Fin 257) (a : Nat) : Fin 257 :=
  if h : pend.val ≤ a ∧ a < 256 then ⟨a + 1, by omega⟩ else pend

/-- `b` placed at address `a` of the code, with PEND beyond it; nothing where `a` is no address. -/
def placeByte (s : State) (a : Nat) (b : Byte) : State :=
  if a < memorySize then { s with mem := s.mem.write a b, pend := coverAddress s.pend a } else s

/-- The bytes placed one after another from address `a`. -/
def placeBytes : List Byte → Nat → State → State
  | [], _, s => s
  | b :: bytes, a, s => placeBytes bytes (a + 1) (placeByte s a b)

/-- The bytes of an instruction placed at pc, as a launch with them in its image would (R292), and no fault standing. -/
def placeInstr (bytes : List Byte) (s : State) : State :=
  placeBytes bytes s.pc { s with fault := none }

end Sys2Proof.Machine
end

