-- ==== Sys2Proof/Machine/Step.lean ====
section
/-! DEFINITION. One step (R140-R142, R153, R154), over any ISA tables and for Z70-REF, and the placing of an instruction
where the next step fetches it. -/

namespace Sys2Proof.Machine

/-- One step under the tables `T`. Faulted: no step exists (R154). Otherwise the instruction at pc is fetched and
executed, and a failed fetch or decode takes its fault from the state before the step (R142, R262). -/
def stepWith (T : IsaTables) (s : State) : Host.Outcome State Fault Refusal :=
  match s.fault with
  | some r => .fault (.alreadyFaulted r)
  | none =>
    match fetchInstr T s with
    | .error e => .next (s.raise e.cause e.info)
    | .ok i => exec i s

/-- One step of the machine with the Z70-REF tables (R140). -/
def step (s : State) : Host.Outcome State Fault Refusal := stepWith z70ref s

/-- The opcode-table word `w` of `nbits` bits stored at pc, with PEND beyond it: the load `new_cpu` does from outside
(R292; log entry 2). -/
def State.withFetchWord (s : State) (nbits w : Nat) : State := placeInstr (tableBytes nbits w) s

end Sys2Proof.Machine
end

