-- ==== Sys2Proof/Machine/Assembler.lean ====
section
/-! DEFINITION. The assembler, the textual form of the ISA (30_encoding.md section 5, R110-R128): lines of text to the
256-byte image, the label table, the listing and `code_end`. It is a function of the host's, not part of the core
(R266). -/

namespace Sys2Proof.Machine

/-- The assembly errors of R122. Which one is reported when several apply is not specified there (log entry 13). -/
inductive AsmError where
  | invalidOperand (token : Text)
  | wrongArgumentCount (mnemonic : Text)
  | unknownMnemonic (mnemonic : Text)
  | nopArguments
  | emptyLabel
  | duplicateLabel (name : Text)
  | undefinedLabel (name : Text)
  | noMatchingMode
  | codeTooLarge (codeEnd : Nat)
  | jumpTo256 (name : Text)
  deriving DecidableEq, Repr

/-! ## Lines (R110, R113) -/

/-- The text before the first `//` (R110). -/
def cutComment : Text → Text
  | [] => []
  | c :: rest => if c = '/' ∧ rest.head? = some '/' then [] else c :: cutComment rest

/-- Text without leading and trailing whitespace (R110; log entry 12). -/
def trim (t : Text) : Text :=
  ((t.dropWhile Char.isWhitespace).reverse.dropWhile Char.isWhitespace).reverse

/-- The preprocessed lines with their original text: comments cut, trimmed, empty lines dropped (R110). -/
def preprocess (lines : List Text) : List (Text × Text) :=
  (lines.map fun l => (trim (cutComment l), l)).filter fun p => !p.1.isEmpty

/-- The text before and after the first `c`, if there is one. -/
def splitFirst (c : Char) : Text → Option (Text × Text)
  | [] => none
  | x :: rest => if x = c then some ([], rest) else (splitFirst c rest).map fun p => (x :: p.1, p.2)

/-- The pieces of a text between its `c`s; one piece where there is none. -/
def splitAll (c : Char) : Text → List Text
  | [] => [[]]
  | x :: rest =>
    if x = c then [] :: splitAll c rest
    else match splitAll c rest with
      | [] => [[x]]
      | w :: ws => (x :: w) :: ws

/-- A line split into its label, if any, and its mnemonic and arguments, if any (R113). -/
structure ParsedLine where
  label : Option Text
  body : Option (Text × List Text)
  deriving DecidableEq, Repr

/-- The instruction part of a line: mnemonic, lower-cased, and trimmed arguments; none where the part is empty (R113). -/
def parseBody (t : Text) : Option (Text × List Text) :=
  let t := trim t
  if t.isEmpty then none
  else
    let rest := trim (t.dropWhile fun c => !c.isWhitespace)
    some ((t.takeWhile fun c => !c.isWhitespace).map Char.toLower,
      if rest.isEmpty then [] else (splitAll ',' rest).map trim)

/-- A preprocessed line split at its first colon (R113). -/
def parseLine (t : Text) : Except AsmError ParsedLine :=
  match splitFirst ':' t with
  | none => .ok { label := none, body := parseBody t }
  | some (l, rest) =>
    if (trim l).isEmpty then .error .emptyLabel
    else .ok { label := some (trim l), body := parseBody rest }

/-! ## Tokens (R111, R112) -/

/-- The digits of R112's range `0-9 A-F`, each at the place of its value. -/
def upperDigits : Text := ['0', '1', '2', '3', '4', '5', '6', '7', '8', '9', 'A', 'B', 'C', 'D', 'E', 'F']

/-- The digits of R112's range `a-f`, which stand for the values from 10 upward. -/
def lowerLetters : Text := ['a', 'b', 'c', 'd', 'e', 'f']

/-- The value of a hex digit `0-9 A-F a-f`; none for any other character (R112). -/
def hexDigit (c : Char) : Option Nat :=
  match upperDigits.idxOf? c with
  | some v => some v
  | none => (lowerLetters.idxOf? c).map (10 + ·)

/-- The hexadecimal natural of a digit string, most significant first, continuing from `acc`. -/
def hexDigits (acc : Nat) : Text → Option Nat
  | [] => some acc
  | c :: rest => match hexDigit c with
    | none => none
    | some v => hexDigits (acc * 16 + v) rest

/-- The text without one trailing `H` or `h` (R112). -/
def dropSuffixH (t : Text) : Text :=
  if t.getLast? = some 'H' ∨ t.getLast? = some 'h' then t.dropLast else t

/-- One or more hex digits with an optional `H` suffix, as a natural (R112). -/
def hexNatural (t : Text) : Option Nat :=
  if (dropSuffixH t).isEmpty then none else hexDigits 0 (dropSuffixH t)

/-- A hex-token: an optional `-`, digits, an optional suffix; its value modulo 256 (R112). -/
def hexToken : Text → Option Byte
  | '-' :: rest => (hexNatural rest).map fun n => BitVec.ofInt 8 (-(n : Int))
  | t => (hexNatural t).map fun n => BitVec.ofNat 8 n

/-- An operand token, the alternatives tried in the order of R111. -/
def parseOperand (t : Text) : Except AsmError Operand :=
  if t = ['A'] then .ok (.reg .A)
  else if t = ['B'] then .ok (.reg .B)
  else if t = ['I'] then .ok (.reg .I)
  else if t = ['[', 'I', ']'] then .ok .indI
  else if t.head? = some '[' ∧ t.tail.getLast? = some ']' then
    match hexToken t.tail.dropLast with
    | some a => .ok (.dir a)
    | none => .error (.invalidOperand t)
  else match hexToken t with
    | some k => .ok (.imm k)
    | none => .error (.invalidOperand t)

/-! ## Mnemonics (R114) -/

/-- The lower-case text of a binary mnemonic. -/
def BinOp.text : BinOp → Text
  | .add => ['a', 'd', 'd']
  | .sub => ['s', 'u', 'b']
  | .cmp => ['c', 'm', 'p']
  | .and => ['a', 'n', 'd']
  | .or => ['o', 'r']
  | .mov => ['m', 'o', 'v']

/-- The lower-case text of a unary mnemonic. -/
def UnOp.text : UnOp → Text
  | .inc => ['i', 'n', 'c']
  | .dec => ['d', 'e', 'c']
  | .not => ['n', 'o', 't']
  | .shr => ['s', 'h', 'r']
  | .shl => ['s', 'h', 'l']

/-- The lower-case text of a jump mnemonic. -/
def JumpOp.text : JumpOp → Text
  | .jmp => ['j', 'm', 'p']
  | .jz => ['j', 'z']
  | .js => ['j', 's']
  | .jc => ['j', 'c']
  | .jo => ['j', 'o']
  | .jp => ['j', 'p']

/-- The text of `nop`. -/
def nopText : Text := ['n', 'o', 'p']

/-- An instruction of the source: complete, or a jump whose label is not yet looked up (R118, R120). -/
inductive AsmItem where
  | instr (i : Instr)
  | jump (c : JumpOp) (label : Text)
  deriving DecidableEq, Repr

/-- A mnemonic and its arguments as an instruction, with the argument counts of R114. -/
def parseItem (mn : Text) (args : List Text) : Except AsmError AsmItem :=
  match allBinOps.find? (fun o => BinOp.text o == mn) with
  | some o =>
    match args with
    | [d, s] => do
      let d ← parseOperand d
      let s ← parseOperand s
      .ok (.instr (Instr.binary o d s))
    | _ => .error (.wrongArgumentCount mn)
  | none =>
    match allUnOps.find? (fun o => UnOp.text o == mn) with
    | some o =>
      match args with
      | [d] => do
        let d ← parseOperand d
        .ok (.instr (Instr.unary o d))
      | _ => .error (.wrongArgumentCount mn)
    | none =>
      match allJumpOps.find? (fun c => JumpOp.text c == mn) with
      | some c =>
        match args with
        | [l] => .ok (.jump c l)
        | _ => .error (.wrongArgumentCount mn)
      | none =>
        if mn = nopText then
          if args.isEmpty then .ok (.instr .nop) else .error .nopArguments
        else .error (.unknownMnemonic mn)

/-! ## The two passes (R117-R125) -/

/-- The size of an item: 2 for a jump, 1 for `nop`, else 1 plus 1 where the mode found carries an extra byte (R117). -/
def itemSize (T : IsaTables) : AsmItem → Except AsmError Nat
  | .jump _ _ => .ok 2
  | .instr i =>
    match encodeWith T i with
    | some bytes => .ok bytes.length
    | none => .error .noMatchingMode

/-- The address a label is bound to (R118, R120). -/
def lookupLabel (labels : LabelTable) (name : Text) : Option Nat :=
  (labels.find? fun p => p.1 == name).map Prod.snd

/-- A label bound to the counter's value; a name already bound is an error (R118, R123). -/
def bindLabel (labels : LabelTable) (addr : Nat) : Option Text → Except AsmError LabelTable
  | none => .ok labels
  | some name =>
    if (lookupLabel labels name).isSome then .error (.duplicateLabel name)
    else .ok (labels ++ [(name, addr)])

/-- What the first pass produces: the instructions in program order with their original text, the label table, and the
final counter (R118). -/
structure FirstPass where
  items : List (AsmItem × Text)
  labels : LabelTable
  codeEnd : Nat
  deriving DecidableEq, Repr

/-- The first pass from counter `addr` with the labels bound so far; each line comes with its original text (R118). -/
def firstPass (T : IsaTables) : List (Text × Text) → Nat → LabelTable → Except AsmError FirstPass
  | [], addr, labels => .ok { items := [], labels := labels, codeEnd := addr }
  | (line, original) :: lines, addr, labels => do
    let p ← parseLine line
    let labels ← bindLabel labels addr p.label
    match p.body with
    | none => firstPass T lines addr labels
    | some (mn, args) =>
      let item ← parseItem mn args
      let size ← itemSize T item
      let rest ← firstPass T lines (addr + size) labels
      .ok { rest with items := (item, original) :: rest.items }

/-- The instruction of an item: a jump's label becomes its address, which must be bound and below 256 (R120). -/
def resolveItem (labels : LabelTable) : AsmItem → Except AsmError Instr
  | .instr i => .ok i
  | .jump c l =>
    match lookupLabel labels l with
    | none => .error (.undefinedLabel l)
    | some a => if a < memorySize then .ok (Instr.jump c (BitVec.ofNat 8 a)) else .error (.jumpTo256 l)

/-- The bytes of an item (R119-R121). -/
def emitItem (T : IsaTables) (labels : LabelTable) (item : AsmItem) : Except AsmError (List Byte) := do
  let i ← resolveItem labels item
  match encodeWith T i with
  | some bytes => .ok bytes
  | none => .error .noMatchingMode

/-- A listing entry: start address, encoded bytes, original source text (R126). -/
structure ListingEntry where
  addr : Nat
  bytes : List Byte
  text : Text
  deriving DecidableEq, Repr

/-- The second pass from counter `addr`: the listing, which holds the emitted bytes (R119, R126). -/
def secondPass (T : IsaTables) (labels : LabelTable) : List (AsmItem × Text) → Nat → Except AsmError (List ListingEntry)
  | [], _ => .ok []
  | (item, original) :: items, addr => do
    let bytes ← emitItem T labels item
    let rest ← secondPass T labels items (addr + bytes.length)
    .ok ({ addr := addr, bytes := bytes, text := original } :: rest)

/-- The result of an assembly (R273). -/
structure Assembly where
  image : List Byte
  labels : LabelTable
  listing : List ListingEntry
  codeEnd : Nat
  deriving DecidableEq, Repr

/-- The code of a listing: its bytes in order (R124, R126). -/
def listingCode (listing : List ListingEntry) : List Byte := (listing.map ListingEntry.bytes).flatten

/-- The 256-byte image of a code: the code from address 0 upward, and 0x00 after it (R124). -/
def imageOf (code : List Byte) : List Byte := code ++ List.replicate (memorySize - code.length) 0x00

/-- `assemble` over any ISA tables (R273): every error aborts the whole assembly (R122). -/
def assembleWith (T : IsaTables) (lines : List Text) : Except AsmError Assembly := do
  let first ← firstPass T (preprocess lines) 0 []
  if memorySize < first.codeEnd then .error (.codeTooLarge first.codeEnd)
  else do
    let listing ← secondPass T first.labels first.items 0
    .ok { image := imageOf (listingCode listing), labels := first.labels, listing := listing, codeEnd := first.codeEnd }

/-- `assemble` for Z70-REF. -/
def assemble (lines : List Text) : Except AsmError Assembly := assembleWith z70ref lines

end Sys2Proof.Machine
end

