-- ==== Sys2Proof/Machine/Run.lean ====
section
/-! DEFINITION. The host's `run` (R152), as a number of steps that the host bounds itself (R268, R274). -/

namespace Sys2Proof.Machine

/-- One round of `run`: a step while the status is Running, else nothing (R152). -/
def runStepWith (T : IsaTables) (s : State) : State :=
  if s.status = .running then
    match stepWith T s with
    | .next t => t
    | .fault _ => s
    | .refused _ => s
  else s

/-- `run` for at most `n` steps: it stops early when the status becomes Halted or Faulted (R152). -/
def runForWith (T : IsaTables) : Nat → State → State
  | 0, s => s
  | n + 1, s => runForWith T n (runStepWith T s)

/-- `run` for at most `n` steps with the Z70-REF tables. -/
def runFor (n : Nat) (s : State) : State := runForWith z70ref n s

end Sys2Proof.Machine
end

