-- ==== Sys2Proof/Machine/HostInterface.lean ====
section
/-! DEFINITION. The host's operations on a core (R273): construction, the only reset (R290-R293), the snapshots (R275), and
the launch of an assembled program (R293). -/

namespace Sys2Proof.Machine

/-- `new_cpu(image, labels)` with PEND = `pend` (R292): a fresh core that owns its copy of the image. An image that is
not 256 bytes, or a PEND over 256, is refused (R293). -/
def newCpu (image : List Byte) (labels : LabelTable) (pend : Nat) : Result :=
  if image.length ≠ memorySize then .refused (.launchImageSize image.length)
  else if h : pend < 257 then
    .next
      { regA := 0x00
        regB := 0x00
        regI := 0x00
        flags := 0x00
        pc := 0
        mem := Memory.ofImage image
        pend := ⟨pend, h⟩
        fault := none
        labels := labels }
  else .refused (.launchPend pend)

/-- The snapshots the host reads between steps (R275). -/
structure Snapshot where
  regA : Byte
  regB : Byte
  regI : Byte
  pc : Nat
  flagOF : Bool
  flagCF : Bool
  flagZF : Bool
  flagPF : Bool
  flagSF : Bool
  memory : List Byte
  status : Status
  fault : Option FaultRecord
  deriving DecidableEq, Repr

/-- What the host sees of a core (R275). -/
def State.snapshot (s : State) : Snapshot where
  regA := s.regA
  regB := s.regB
  regI := s.regI
  pc := s.pc
  flagOF := flagOF s.flags
  flagCF := flagCF s.flags
  flagZF := flagZF s.flags
  flagPF := flagPF s.flags
  flagSF := flagSF s.flags
  memory := s.mem.toImage
  status := s.status
  fault := s.fault

/-- `assemble`, then `new_cpu` with that assembly's image, labels and `code_end` (R293). -/
def launchWith (T : IsaTables) (lines : List Text) : Except AsmError Result :=
  match assembleWith T lines with
  | .error e => .error e
  | .ok a => .ok (newCpu a.image a.labels a.codeEnd)

/-- `launchWith` for Z70-REF. -/
def launch (lines : List Text) : Except AsmError Result := launchWith z70ref lines

end Sys2Proof.Machine
end

