-- ==== Sys2Proof/Safety.lean ====
section
/-! DEFINITION. What counts as a safe state and a safe run, and the words the statements use: the invariant of a core's
state, the frame of a step, and the three ends of a run (R276). -/

namespace Sys2Proof.Machine

/-! ## The invariant -/

/-- What a fault record says of the state it stands in, which is the state before the faulting step (R261, R262).
ConstantWrite is raised by no decodable instruction (R145, R261). -/
def FaultRecord.Describes (T : IsaTables) (s : State) (r : FaultRecord) : Prop :=
  r.pc0 = s.pc ∧
  match r.cause with
  | .fetchPastEnd => ∃ a, r.info = .address a ∧ s.pend.val ≤ a ∧ (a = s.pc ∨ a = s.pc + 1 ∧ s.pc < s.pend.val)
  | .illegalOpcode => s.pc < s.pend.val ∧ r.info = .firstByte (s.mem.read s.pc) ∧
      decodeFirst T (s.mem.read s.pc) = .error .illegalOpcode
  | .illegalMode => s.pc < s.pend.val ∧ r.info = .firstByte (s.mem.read s.pc) ∧
      decodeFirst T (s.mem.read s.pc) = .error .illegalMode
  | .constantWrite => False

/-- What holds of every state of a core with the tables `T`: the memory is in canonical form, pc is in 0..256 (R24),
bits 2..0 of FLAGS are zero (R29), and a fault record describes the state it was taken in (R262). -/
structure State.Inv (T : IsaTables) (s : State) : Prop where
  mem_wf : s.mem.wf
  pc_le : s.pc ≤ memorySize
  flags_reserved : flagReserved s.flags = 0
  fault_describes : ∀ r, s.fault = some r → r.Describes T s

/-! ## Frames -/

/-- Apart from FLAGS and pc, `t` differs from `s` at most at the location `loc` (at none, where it is `none`). -/
def Frame (s t : State) (loc : Option Location) : Prop :=
  (∀ r, loc ≠ some (.reg r) → t.reg r = s.reg r) ∧
  (∀ a, loc ≠ some (.mem a) → t.mem.read a = s.mem.read a) ∧
  t.pend = s.pend ∧ t.fault = s.fault ∧ t.labels = s.labels

/-- ZF, SF and PF of `new` are those of the result `r`, and bits 2..0 are as in `old` (R150, R151). -/
def ResultFlags (old new r : Byte) : Prop :=
  flagZF new = decide (r.toNat = 0) ∧ flagSF new = decide (128 ≤ r.toNat) ∧
  flagPF new = decide (popcount r % 2 = 0) ∧ flagReserved new = flagReserved old

/-! ## Encodings and jump steps -/

/-- The binary instructions `mk`, of the mnemonic `o`, are encoded as `OPC(o)<<4 | mode` and the operands' extra bytes,
where the mode's row holds the operands' kinds, under any tables that meet R7; under Z70-REF `OPC(o)` is `code`. -/
def BinaryCode (o : BinOp) (code : Nibble) (mk : Operand → Operand → Instr) : Prop :=
  z70ref.opc (.bin o) = code ∧
  ∀ T : IsaTables, T.Valid → ∀ d src m, T.bmode m = some (d.kind, src.kind) →
    encodeWith T (mk d src) = some (aluFirstByte (T.opc (.bin o)) m :: (d.extraBytes ++ src.extraBytes))

/-- The unary instructions `mk`, of the mnemonic `o`, are encoded as the one byte `OPC(o)<<4 | mode`, under any tables that
meet R7; under Z70-REF `OPC(o)` is `code`. -/
def UnaryCode (o : UnOp) (code : Nibble) (mk : Operand → Instr) : Prop :=
  z70ref.opc (.un o) = code ∧
  ∀ T : IsaTables, T.Valid → ∀ d m, T.umode m = some d.kind →
    encodeWith T (mk d) = some [aluFirstByte (T.opc (.un o)) m]

/-- What a step does at the byte of the jump `c` that `cond` decides (R230), under any tables that meet R7; under Z70-REF
the byte is `code`. It fetches the target byte; then pc is the target or the address after the two bytes, and nothing else
changes. The step faults instead where the first byte or the target byte is at or beyond PEND (R141). -/
def JumpStep (c : JumpOp) (code : Byte) (cond : Byte → Bool) : Prop :=
  z70ref.jmpop c = code ∧
  ∀ (T : IsaTables) (s : State), T.Valid → s.fault = none → s.mem.read s.pc = T.jmpop c →
    (s.pend.val ≤ s.pc → stepWith T s = .next (s.raise .fetchPastEnd (.address s.pc))) ∧
    (s.pc + 1 = s.pend.val → stepWith T s = .next (s.raise .fetchPastEnd (.address (s.pc + 1)))) ∧
    (s.pc + 1 < s.pend.val →
      stepWith T s = .next { s with pc := if cond s.flags then (s.mem.read (s.pc + 1)).toNat else s.pc + 2 })

/-! ## Memory as bytes -/

/-- The `n` bytes of a memory from address `a` upward. -/
def Memory.bytesAt (m : Memory) (a n : Nat) : List Byte := (List.range n).map fun k => m.read (a + k)

/-! ## Runs (R276) -/

/-- The run ends normally: it reaches the Halted status (R276 item 1). -/
def RunHalts (T : IsaTables) (s : State) : Prop := ∃ n, (runForWith T n s).status = .halted

/-- The run has failed: it reaches the Faulted status (R276 item 2). -/
def RunFails (T : IsaTables) (s : State) : Prop := ∃ n, (runForWith T n s).status = .faulted

/-- The run is a hang: it reaches neither status (R276 item 3). -/
def RunHangs (T : IsaTables) (s : State) : Prop := ∀ n, (runForWith T n s).status = .running

/-- A safe run never reaches the Faulted status. -/
def SafeRun (T : IsaTables) (s : State) : Prop := ∀ n, (runForWith T n s).status ≠ .faulted

end Sys2Proof.Machine
end

