-- ==== Sys2Proof/Certificates/Slice0/Obligations.lean ====
section
/-! DEFINITION. The statements for the provers. Each says what a numbered rule of spec/ says of an instruction, the decoder,
the machine, the host interface or the assembler; OBLIGATIONS.json lists them with the rules they rest on. -/

open Sys2Proof Sys2Proof.Machine

/-! ## Encoding -/

/-- R129: under every ISA tables that meet R7, every well-formed instruction has an encoding, and decoding it,
whatever bytes follow, gives the instruction back. R129 is the spec's own inference. -/
def Obligations.DecodeOfEncodeIsTheInstruction : Prop :=
  ∀ T : IsaTables, T.Valid → ∀ i : Instr, i.wf T = true →
    ∃ bytes, encodeWith T i = some bytes ∧ ∀ rest, decodeWith T (bytes ++ rest) = .ok (i, rest)

/-- R85, R89: whatever decodes is a well-formed instruction, and the bytes read are its one encoding. R89 is the
spec's own inference. -/
def Obligations.EncodeOfDecodeIsTheBytes : Prop :=
  ∀ T : IsaTables, T.Valid → ∀ bytes i rest, decodeWith T bytes = .ok (i, rest) →
    i.wf T = true ∧ ∃ e, encodeWith T i = some e ∧ bytes = e ++ rest

/-- R94: the complete first-byte map of Z70-REF by high nibble, with the lengths, and Z70-REF meets R7. The numbers
are the spec's own choice (D1 to D7, D25), and R94 its inference (log entry 1). -/
def Obligations.FirstByteMapOfZ70Ref : Prop :=
  z70ref.Valid ∧
  ∀ b : Byte,
    (b.toNat / 16 = 0 ∨ 0xC ≤ b.toNat / 16 ∧ b.toNat / 16 ≤ 0xE ∨ 0xF6 ≤ b.toNat ∧ b.toNat ≤ 0xFE →
      decodeFirst z70ref b = .error .illegalOpcode) ∧
    (∀ (k : Nat) (o : BinOp), [BinOp.add, .sub, .cmp, .and, .or, .mov][k]? = some o → b.toNat / 16 = 1 + k →
      ∃ row, refBmodeRows[b.toNat % 16]? = some row ∧ decodeFirst z70ref b = .ok (.binary o row.1 row.2) ∧
        (Form.binary o row.1 row.2).length = if b.toNat % 16 ∈ [0x3, 0x4, 0x8, 0x9, 0xC, 0xF] then 2 else 1) ∧
    (∀ (k : Nat) (o : UnOp), [UnOp.inc, .dec, .not, .shr, .shl][k]? = some o → b.toNat / 16 = 7 + k →
      (4 ≤ b.toNat % 16 → decodeFirst z70ref b = .error .illegalMode) ∧
      (b.toNat % 16 < 4 → ∃ d, [OperandKind.reg .A, .reg .B, .reg .I, .indI][b.toNat % 16]? = some d ∧
        decodeFirst z70ref b = .ok (.unary o d) ∧ (Form.unary o d).length = 1)) ∧
    (∀ (k : Nat) (c : JumpOp), [JumpOp.jmp, .jz, .js, .jc, .jo, .jp][k]? = some c → b.toNat = 0xF0 + k →
      decodeFirst z70ref b = .ok (.jump c) ∧ (Form.jump c).length = 2) ∧
    (b.toNat = 0xFF → decodeFirst z70ref b = .ok .nop ∧ Form.nop.length = 1)

/-- R86: the length of an instruction follows from its first byte alone, the decoder takes exactly that many bytes,
and an illegal first byte is rejected whatever follows it. R86 is the spec's own inference. -/
def Obligations.LengthFollowsFromFirstByte : Prop :=
  ∀ T : IsaTables, T.Valid → ∀ (b0 : Byte) (rest : List Byte),
    (∀ c, decodeFirst T b0 = .error c → decodeWith T (b0 :: rest) = .error (.illegal c b0)) ∧
    ∀ f, decodeFirst T b0 = .ok f →
      (f.length = match f with
        | .nop => 1
        | .jump _ => 2
        | .unary _ _ => 1
        | .binary _ dk sk => if dk.isExtra = true ∨ sk.isExtra = true then 2 else 1) ∧
      (rest.length + 1 < f.length → decodeWith T (b0 :: rest) = .error .truncated) ∧
      (f.length ≤ rest.length + 1 → ∃ i left, decodeWith T (b0 :: rest) = .ok (i, left) ∧
        b0 :: rest = (b0 :: rest).take f.length ++ left)

/-- R115, R116: the mode code is the first row, in increasing code order, that matches the operands' kinds; where none
matches there is no encoding; under Z70-REF no unary destination is an immediate or a direct address. The scan's order
is the spec's own decision D21. -/
def Obligations.ModeSearchTakesTheFirstMatchingRow : Prop :=
  (∀ (T : IsaTables) (o : UnOp) (d : Operand),
    (∀ m, T.umode m = some d.kind → (∀ m' < m, T.umode m' ≠ some d.kind) →
      encodeWith T (Instr.unary o d) = some ((T.opc (.un o) ++ m : Byte) :: d.extraBytes)) ∧
    ((∀ m, T.umode m ≠ some d.kind) → encodeWith T (Instr.unary o d) = none)) ∧
  (∀ (T : IsaTables) (o : BinOp) (d s : Operand),
    (∀ m, T.bmode m = some (d.kind, s.kind) → (∀ m' < m, T.bmode m' ≠ some (d.kind, s.kind)) →
      encodeWith T (Instr.binary o d s) = some ((T.opc (.bin o) ++ m : Byte) :: (d.extraBytes ++ s.extraBytes))) ∧
    ((∀ m, T.bmode m ≠ some (d.kind, s.kind)) → encodeWith T (Instr.binary o d s) = none)) ∧
  ∀ (o : UnOp) (k : Byte), encode (Instr.unary o (.imm k)) = none ∧ encode (Instr.unary o (.dir k)) = none

/-- V-decode: a few words written out from R90 to R93 decode to the instructions they stand for. The numbers are the
spec's own choice (D1 to D4; log entry 1). -/
def Obligations.WrittenOutWordsDecode : Prop :=
  decode [0x10] = .ok (.add (.reg .A) (.reg .B), []) ∧
  decode [0x13, 0x05] = .ok (.add (.reg .A) (.imm 0x05), []) ∧
  decode [0x3D] = .ok (.cmp .indI (.reg .A), []) ∧
  decode [0x6F, 0x20] = .ok (.mov (.dir 0x20) (.reg .A), []) ∧
  decode [0xB3] = .ok (.shl .indI, []) ∧
  decode [0xF5, 0x40] = .ok (.jp 0x40, []) ∧
  decode [0xFF] = .ok (.nop, [])

/-! ## The step -/

/-- R142: where the bytes at pc, below PEND, decode to an instruction, the step of a core that has not faulted is that
instruction's meaning at that state. The meaning itself moves pc past the instruction's bytes (log entry 4). -/
def Obligations.StepRunsTheDecodedInstruction : Prop :=
  ∀ (s : State) (n : Nat) (i : Instr) (rest : List Byte), s.fault = none → s.pc + n ≤ s.pend.val →
    decode (s.mem.bytesAt s.pc n) = .ok (i, rest) → step s = exec i s

/-- R140: a core that has not faulted always answers a step with a next state, which may be the Faulted state. That a
fault leaves a Faulted state with a record is the spec's own decision D13 (log entry 3). -/
def Obligations.StepAnswersUnlessFaulted : Prop :=
  ∀ (T : IsaTables) (s : State), s.status ≠ .faulted → ∃ t, stepWith T s = .next t

/-- R154: in the Faulted status no step exists, and a run leaves the state and its first fault record as they are.
R154 is the spec's own decision D30; that the request itself is a fault of the model's is log entry 3. -/
def Obligations.FaultedStatusIsSticky : Prop :=
  ∀ (T : IsaTables) (s : State) (r : FaultRecord), s.fault = some r →
    stepWith T s = .fault (.alreadyFaulted r) ∧ ∀ n, runForWith T n s = s

/-- R153: a step requested in the Halted status raises FetchPastEnd at pc, and `run` never requests such a step. The
state the fault leaves is the spec's own decision D13 (R262) in the form of log entry 3, and the run is the bounded
run of log entry 17. -/
def Obligations.HaltedStepRaisesFetchPastEnd : Prop :=
  ∀ (T : IsaTables) (s : State), s.status = .halted →
    (∃ t, stepWith T s = .next t ∧ t.status = .faulted ∧
      t = { s with fault := some { cause := .fetchPastEnd, pc0 := s.pc, info := .address s.pc } }) ∧
    ∀ n, runForWith T n s = s

/-- R262: a step that faults discards every write, the moves of pc included, records the cause, pc0 and the info, and
leaves a Faulted state in which no later step exists. R262 is the spec's own decision D13. -/
def Obligations.FaultDiscardsEveryWrite : Prop :=
  ∀ (T : IsaTables) (s t : State) (r : FaultRecord), stepWith T s = .next t → t.fault = some r →
    t = { s with fault := some r } ∧ r.pc0 = s.pc ∧ t.status = .faulted ∧ stepWith T t = .fault (.alreadyFaulted r)

/-- R263: a step reports the first fault that applies: the first byte at or beyond PEND, an illegal first byte
(whatever PEND says of the byte after it), the second byte at or beyond PEND, a write to a constant. The order is the
spec's own decision D15, the causes D12 and D14; the info of ConstantWrite is log entry 7. -/
def Obligations.FirstApplicableFaultIsReported : Prop :=
  ∀ (T : IsaTables) (s : State), s.fault = none →
    (s.pend.val ≤ s.pc → stepWith T s = .next (s.raise .fetchPastEnd (.address s.pc))) ∧
    (s.pc < s.pend.val →
      (decodeFirst T (s.mem.read s.pc) = .error .illegalOpcode →
        stepWith T s = .next (s.raise .illegalOpcode (.firstByte (s.mem.read s.pc)))) ∧
      (decodeFirst T (s.mem.read s.pc) = .error .illegalMode →
        stepWith T s = .next (s.raise .illegalMode (.firstByte (s.mem.read s.pc)))) ∧
      ∀ f, decodeFirst T (s.mem.read s.pc) = .ok f →
        (f.length = 2 → s.pend.val ≤ s.pc + 1 →
          stepWith T s = .next (s.raise .fetchPastEnd (.address (s.pc + 1)))) ∧
        (s.pc + f.length ≤ s.pend.val →
          (∃ o sk, f = .binary o .imm sk ∧ o ≠ .cmp) ∨ (∃ o, f = .unary o .imm) →
          stepWith T s = .next (s.raise .constantWrite (.firstByte (s.mem.read s.pc)))))

/-- R170, R200: under tables that meet R7, an instruction whose bytes are legal and all below PEND raises no fault.
R200 rests on the spec's own decision D7. -/
def Obligations.WholeInstructionBelowPendRaisesNoFault : Prop :=
  ∀ (T : IsaTables) (s : State) (f : Form), T.Valid → s.fault = none → decodeFirst T (s.mem.read s.pc) = .ok f →
    s.pc + f.length ≤ s.pend.val → ∃ t, stepWith T s = .next t ∧ t.fault = none

/-- Every step keeps the invariant: memory canonical, pc in 0..256, bits 2..0 of FLAGS zero, and a fault record, never
of a constant write, that describes the state before the step (R24, R29, R32, R261, R262). The canonical form is the
model's (log entry 9), and pc up to 256 and the fault record are the spec's own decisions D11 and D13. -/
def Obligations.EveryStepKeepsTheInvariant : Prop :=
  ∀ (T : IsaTables) (s t : State), T.Valid → s.Inv T → stepWith T s = .next t → t.Inv T

/-- The state after reset meets the invariant, whatever the tables (R34). `State.reset` is the model's reading of
construction (log entry 2), and its values are the spec's own decisions D8 to D10 (log entry 11). -/
def Obligations.ResetMeetsTheInvariant : Prop :=
  ∀ T : IsaTables, State.reset.Inv T

/-- R27, R33: no step changes PEND or the label table. That the table is kept in the state is log entry 8. -/
def Obligations.StepKeepsPendAndLabels : Prop :=
  ∀ (T : IsaTables) (s t : State), stepWith T s = .next t → t.pend = s.pend ∧ t.labels = s.labels

/-- R27: no instruction reads PEND: with another PEND its effect is the same. -/
def Obligations.NoInstructionReadsPend : Prop :=
  ∀ (i : Instr) (s t : State) (p : Fin 257), exec i s = .next t →
    exec i { s with pend := p } = .next { t with pend := p }

/-- R33: no rule of execution reads the label table: with another table a step is the same. R33 here is the spec's own
decision D29; the field is log entry 8. -/
def Obligations.NoStepReadsTheLabels : Prop :=
  ∀ (T : IsaTables) (s t : State) (l : LabelTable), stepWith T s = .next t →
    stepWith T { s with labels := l } = .next { t with labels := l }

/-- R26: no instruction reads pc as data: at another pc it leaves the same registers, FLAGS and memory. -/
def Obligations.NoInstructionReadsPcAsData : Prop :=
  ∀ (i : Instr) (s t : State) (q : Nat), exec i s = .next t →
    ∃ t', exec i { s with pc := q } = .next t' ∧ t'.regA = t.regA ∧ t'.regB = t.regB ∧ t'.regI = t.regI ∧
      t'.flags = t.flags ∧ t'.mem = t.mem ∧ (t'.fault = none ↔ t.fault = none)

/-- R276: every run has exactly one of three ends: it halts, it fails, or it is a hang. R276 is the spec's own
inference; the bounded run is log entry 17. -/
def Obligations.RunHasExactlyOneEnd : Prop :=
  ∀ (T : IsaTables) (s : State),
    (RunHalts T s ∧ ¬ RunFails T s ∧ ¬ RunHangs T s) ∨ (¬ RunHalts T s ∧ RunFails T s ∧ ¬ RunHangs T s) ∨
    (¬ RunHalts T s ∧ ¬ RunFails T s ∧ RunHangs T s)

/-! ## Memory -/

/-- R32: memories in canonical form that read alike at every address are equal data. The canonical form is the model's
(log entry 9). -/
def Obligations.CanonicalMemoriesReadingAlikeAreEqual : Prop :=
  ∀ m m' : Memory, m.wf → m'.wf → (∀ a, a < memorySize → m.read a = m'.read a) → m = m'

/-- R62: a byte that `mov [a],A` stores is what the next fetch of its address reads, below PEND and above it alike as
PEND allows, and every other fetch reads as before. R62 is the spec's own inference. -/
def Obligations.StoredByteIsWhatTheNextFetchReads : Prop :=
  ∀ (s : State) (a : Byte), s.mem.wf →
    ∃ t, exec (.mov (.dir a) (.reg .A)) s = .next t ∧
      (a.toNat < s.pend.val → fetchByte t a.toNat = .ok s.regA) ∧
      (s.pend.val ≤ a.toNat → fetchByte t a.toNat = .error { cause := .fetchPastEnd, info := .address a.toNat }) ∧
      ∀ b, b ≠ a.toNat → fetchByte t b = fetchByte s b

/-- R22: `mov I,k` changes the address that `[I]` names for later instructions, and an instruction that reads `[I]` while
it writes I uses I as it was at the step's start. -/
def Obligations.IndirectAddressIsIAtStepStart : Prop :=
  ∀ (s : State) (k : Byte),
    (∃ t, exec (.mov (.reg .I) (.imm k)) s = .next t ∧ readOperand t .indI = s.mem.read k.toNat) ∧
    (∃ t, exec (.mov (.reg .I) .indI) s = .next t ∧ t.regI = s.mem.read s.regI.toNat ∧ t.mem = s.mem)

/-! ## The ALU -/

/-- R149: signed overflow of a sum and of a difference, by range and by the equal bit forms. The bit forms are the
spec's own inference. -/
def Obligations.SignedOverflowByRangeAndByBits : Prop :=
  ∀ d s : Byte,
    (addOv d s = true ↔ ¬ (-128 ≤ d.toInt + s.toInt ∧ d.toInt + s.toInt ≤ 127)) ∧
    (subOv d s = true ↔ ¬ (-128 ≤ d.toInt - s.toInt ∧ d.toInt - s.toInt ≤ 127)) ∧
    addOv d s = (d.getLsbD 7 == s.getLsbD 7 && (d + s).getLsbD 7 != d.getLsbD 7) ∧
    subOv d s = (d.getLsbD 7 != s.getLsbD 7 && (d - s).getLsbD 7 != d.getLsbD 7)

/-- R150: the flag hook writes all five flags and leaves bits 2..0 alone. -/
def Obligations.FlagHookWritesAllFiveFlags : Prop :=
  ∀ (f r : Byte) (carry overflow logical : Bool),
    (flagZF (hook f r carry overflow logical) = true ↔ r = 0) ∧
    flagSF (hook f r carry overflow logical) = r.getLsbD 7 ∧
    flagPF (hook f r carry overflow logical) = parity r ∧
    flagCF (hook f r carry overflow logical) = (if logical then false else carry) ∧
    flagOF (hook f r carry overflow logical) = (if logical then false else overflow) ∧
    flagReserved (hook f r carry overflow logical) = flagReserved f

/-- R151: parity is 1 exactly when the number of set bits, over all 8 bits, is even. -/
def Obligations.ParityIsEvenNumberOfSetBits : Prop :=
  (∀ v : Byte, parity v = true ↔ Even (Finset.univ.filter fun k : Fin 8 => v.getLsbD k = true).card) ∧ parity 0x00 = true

/-! ## Binary instructions -/

/-- R171: `add` writes the sum modulo 256 to its destination and sets all five flags, in every form whose destination can
be written; nothing else changes but pc. -/
def Obligations.AddWritesSumAndFlags : Prop :=
  BinaryCode .add 0x1 .add ∧
  ∀ (d src : Operand) (s : State), d.kind ≠ .imm → s.mem.wf →
    ∃ t, exec (.add d src) s = .next t ∧
      (readLocation t (locate s d)).toNat = ((readOperand s d).toNat + (readOperand s src).toNat) % 256 ∧
      flagCF t.flags = decide (255 < (readOperand s d).toNat + (readOperand s src).toNat) ∧
      flagOF t.flags = decide ((readOperand s d).toInt + (readOperand s src).toInt < -128 ∨
        127 < (readOperand s d).toInt + (readOperand s src).toInt) ∧
      ResultFlags s.flags t.flags (readLocation t (locate s d)) ∧
      t.pc = s.pc + (1 + d.extraBytes.length + src.extraBytes.length) ∧ Frame s t (some (locate s d))

/-- R172: `sub` writes the difference modulo 256 to its destination and sets all five flags, CF being the borrow, in every
form whose destination can be written; nothing else changes but pc. -/
def Obligations.SubWritesDifferenceAndFlags : Prop :=
  BinaryCode .sub 0x2 .sub ∧
  ∀ (d src : Operand) (s : State), d.kind ≠ .imm → s.mem.wf →
    ∃ t, exec (.sub d src) s = .next t ∧
      ((readLocation t (locate s d)).toNat : Int) = ((readOperand s d).toNat - (readOperand s src).toNat : Int) % 256 ∧
      flagCF t.flags = decide ((readOperand s d).toNat < (readOperand s src).toNat) ∧
      flagOF t.flags = decide ((readOperand s d).toInt - (readOperand s src).toInt < -128 ∨
        127 < (readOperand s d).toInt - (readOperand s src).toInt) ∧
      ResultFlags s.flags t.flags (readLocation t (locate s d)) ∧
      t.pc = s.pc + (1 + d.extraBytes.length + src.extraBytes.length) ∧ Frame s t (some (locate s d))

/-- R173: `cmp` sets all five flags as `sub` does and writes no register and no memory, in every form. -/
def Obligations.CmpSetsFlagsOfDifferenceOnly : Prop :=
  BinaryCode .cmp 0x3 .cmp ∧
  ∀ (d src : Operand) (s : State),
    ∃ t, exec (.cmp d src) s = .next t ∧
      flagCF t.flags = decide ((readOperand s d).toNat < (readOperand s src).toNat) ∧
      flagOF t.flags = decide ((readOperand s d).toInt - (readOperand s src).toInt < -128 ∨
        127 < (readOperand s d).toInt - (readOperand s src).toInt) ∧
      ResultFlags s.flags t.flags (readOperand s d - readOperand s src) ∧
      t.pc = s.pc + (1 + d.extraBytes.length + src.extraBytes.length) ∧ Frame s t none

/-- R174: `and` writes the bitwise AND and clears CF and OF, in every form whose destination can be written; nothing else
changes but the other flags and pc. -/
def Obligations.AndWritesConjunctionAndClearsCarryOverflow : Prop :=
  BinaryCode .and 0x4 .and ∧
  ∀ (d src : Operand) (s : State), d.kind ≠ .imm → s.mem.wf →
    ∃ t, exec (.and d src) s = .next t ∧
      (∀ k < 8, (readLocation t (locate s d)).getLsbD k =
        ((readOperand s d).getLsbD k && (readOperand s src).getLsbD k)) ∧
      flagCF t.flags = false ∧ flagOF t.flags = false ∧
      ResultFlags s.flags t.flags (readLocation t (locate s d)) ∧
      t.pc = s.pc + (1 + d.extraBytes.length + src.extraBytes.length) ∧ Frame s t (some (locate s d))

/-- R175: `or` writes the bitwise inclusive OR and clears CF and OF, in every form whose destination can be written;
nothing else changes but the other flags and pc. -/
def Obligations.OrWritesDisjunctionAndClearsCarryOverflow : Prop :=
  BinaryCode .or 0x5 .or ∧
  ∀ (d src : Operand) (s : State), d.kind ≠ .imm → s.mem.wf →
    ∃ t, exec (.or d src) s = .next t ∧
      (∀ k < 8, (readLocation t (locate s d)).getLsbD k =
        ((readOperand s d).getLsbD k || (readOperand s src).getLsbD k)) ∧
      flagCF t.flags = false ∧ flagOF t.flags = false ∧
      ResultFlags s.flags t.flags (readLocation t (locate s d)) ∧
      t.pc = s.pc + (1 + d.extraBytes.length + src.extraBytes.length) ∧ Frame s t (some (locate s d))

/-- R176: `mov` copies the source to the destination and writes no flag, in every form whose destination can be written;
nothing else changes but pc. -/
def Obligations.MovCopiesAndWritesNoFlag : Prop :=
  BinaryCode .mov 0x6 .mov ∧
  ∀ (d src : Operand) (s : State), d.kind ≠ .imm → s.mem.wf →
    ∃ t, exec (.mov d src) s = .next t ∧
      readLocation t (locate s d) = readOperand s src ∧ t.flags = s.flags ∧
      t.pc = s.pc + (1 + d.extraBytes.length + src.extraBytes.length) ∧ Frame s t (some (locate s d))

/-- R177: `add` and then `sub` of the same source restores a destination that the source does not share, whatever the
flags and whether or not either overflows. R177 is the spec's own inference (C4). -/
def Obligations.AddThenSubRestoresTheDestination : Prop :=
  ∀ (r q : Reg) (s : State), r ≠ q →
    ∃ t u, exec (.add (.reg r) (.reg q)) s = .next t ∧ exec (.sub (.reg r) (.reg q)) t = .next u ∧
      ∀ x, u.reg x = s.reg x

/-! ## Unary instructions -/

/-- R201: `inc` adds 1 modulo 256 and keeps CF; OF is set exactly for 0x7F; nothing else changes but ZF, SF, PF and pc. -/
def Obligations.IncAddsOneAndKeepsCarry : Prop :=
  UnaryCode .inc 0x7 .inc ∧
  ∀ (d : Operand) (s : State), d.kind ≠ .imm → s.mem.wf →
    ∃ t, exec (.inc d) s = .next t ∧
      (readLocation t (locate s d)).toNat = ((readOperand s d).toNat + 1) % 256 ∧
      flagCF t.flags = flagCF s.flags ∧ flagOF t.flags = decide ((readOperand s d).toNat = 0x7F) ∧
      ResultFlags s.flags t.flags (readLocation t (locate s d)) ∧
      t.pc = s.pc + (1 + d.extraBytes.length) ∧ Frame s t (some (locate s d))

/-- R202: `dec` subtracts 1 modulo 256 and keeps CF; OF is set exactly for 0x80; nothing else changes but ZF, SF, PF and
pc. -/
def Obligations.DecSubtractsOneAndKeepsCarry : Prop :=
  UnaryCode .dec 0x8 .dec ∧
  ∀ (d : Operand) (s : State), d.kind ≠ .imm → s.mem.wf →
    ∃ t, exec (.dec d) s = .next t ∧
      (readLocation t (locate s d)).toNat = ((readOperand s d).toNat + 255) % 256 ∧
      flagCF t.flags = flagCF s.flags ∧ flagOF t.flags = decide ((readOperand s d).toNat = 0x80) ∧
      ResultFlags s.flags t.flags (readLocation t (locate s d)) ∧
      t.pc = s.pc + (1 + d.extraBytes.length) ∧ Frame s t (some (locate s d))

/-- R203: `not` writes the complement and no flag; nothing else changes but pc. -/
def Obligations.NotWritesComplementAndNoFlag : Prop :=
  UnaryCode .not 0x9 .not ∧
  ∀ (d : Operand) (s : State), d.kind ≠ .imm → s.mem.wf →
    ∃ t, exec (.not d) s = .next t ∧
      (readLocation t (locate s d)).toNat = 0xFF - (readOperand s d).toNat ∧ t.flags = s.flags ∧
      t.pc = s.pc + (1 + d.extraBytes.length) ∧ Frame s t (some (locate s d))

/-- R204: `shr` halves its destination; CF is the old bit 0 and OF the old bit 7, and SF is 0; nothing else changes but
ZF, PF and pc. -/
def Obligations.ShrShiftsRightByOne : Prop :=
  UnaryCode .shr 0xA .shr ∧
  ∀ (d : Operand) (s : State), d.kind ≠ .imm → s.mem.wf →
    ∃ t, exec (.shr d) s = .next t ∧
      (readLocation t (locate s d)).toNat = (readOperand s d).toNat / 2 ∧
      flagCF t.flags = decide ((readOperand s d).toNat % 2 = 1) ∧
      flagOF t.flags = decide (128 ≤ (readOperand s d).toNat) ∧ flagSF t.flags = false ∧
      ResultFlags s.flags t.flags (readLocation t (locate s d)) ∧
      t.pc = s.pc + (1 + d.extraBytes.length) ∧ Frame s t (some (locate s d))

/-- R205: `shl` doubles its destination modulo 256; CF is the old bit 7 and OF the old bit 7 xor the old bit 6, which
is the new bit 7; the old CF affects nothing; nothing else changes but ZF, SF, PF and pc. OF's reading is the spec's
own decision D31 (C1). -/
def Obligations.ShlShiftsLeftByOne : Prop :=
  UnaryCode .shl 0xB .shl ∧
  ∀ (d : Operand) (s : State), d.kind ≠ .imm → s.mem.wf →
    ∃ t, exec (.shl d) s = .next t ∧
      (readLocation t (locate s d)).toNat = (readOperand s d).toNat * 2 % 256 ∧
      flagCF t.flags = decide (128 ≤ (readOperand s d).toNat) ∧
      flagOF t.flags = (flagCF t.flags ^^ decide (128 ≤ (readLocation t (locate s d)).toNat)) ∧
      flagOF t.flags = ((readOperand s d).getLsbD 7 ^^ (readOperand s d).getLsbD 6) ∧
      ResultFlags s.flags t.flags (readLocation t (locate s d)) ∧
      t.pc = s.pc + (1 + d.extraBytes.length) ∧ Frame s t (some (locate s d))

/-- R145: every ALU instruction that writes raises ConstantWrite for an immediate destination and changes nothing
else. No bytes decode to such an instruction (R7 item 4). What the record holds where no first byte was fetched is log
entry 7. -/
def Obligations.ConstantDestinationRaisesConstantWrite : Prop :=
  ∀ (k : Byte) (i : Instr) (s : State), i.dst = some (.imm k) → (∀ src, i ≠ .cmp (.imm k) src) →
    ∃ t, exec i s = .next t ∧
      t = { s with fault := some { cause := .constantWrite, pc0 := s.pc, info := .firstByte (s.mem.read s.pc) } }

/-! ## Control transfer -/

/-- R232: `jmp` always loads its target into pc and changes nothing else; one whose target is its own address, its
bytes below PEND, is a run that never ends. The check of the target byte against PEND is the spec's own choice D12
(R141), and the state a fault leaves is its decision D13 (R262) in the form of log entry 3. The run that never ends is
over the bounded runs of log entry 17. -/
def Obligations.JmpLoadsItsTarget : Prop :=
  (∀ T t, encodeWith T (.jmp t) = some [T.jmpop .jmp, t]) ∧
  (∀ t s, exec (.jmp t) s = .next { s with pc := t.toNat }) ∧
  JumpStep .jmp 0xF0 (fun _ => true) ∧
  ∀ (T : IsaTables) (s : State), T.Valid → s.fault = none → s.pc + 1 < s.pend.val → s.mem.read s.pc = T.jmpop .jmp →
    (s.mem.read (s.pc + 1)).toNat = s.pc → RunHangs T s

/-- R233: `jz` loads its target into pc where ZF is 1, else passes its two bytes, and changes nothing else. The check
of the target byte against PEND is the spec's own choice D12 (R141), and the state a fault leaves is its decision D13
(R262) in the form of log entry 3. -/
def Obligations.JzJumpsOnZero : Prop :=
  (∀ T t, encodeWith T (.jz t) = some [T.jmpop .jz, t]) ∧
  (∀ t s, exec (.jz t) s = .next { s with pc := if s.flags.getLsbD 5 then t.toNat else s.pc + 2 }) ∧
  JumpStep .jz 0xF1 fun f => f.getLsbD 5

/-- R234: `js` loads its target into pc where SF is 1, else passes its two bytes, and changes nothing else. The check
of the target byte against PEND is the spec's own choice D12 (R141), and the state a fault leaves is its decision D13
(R262) in the form of log entry 3. -/
def Obligations.JsJumpsOnSign : Prop :=
  (∀ T t, encodeWith T (.js t) = some [T.jmpop .js, t]) ∧
  (∀ t s, exec (.js t) s = .next { s with pc := if s.flags.getLsbD 3 then t.toNat else s.pc + 2 }) ∧
  JumpStep .js 0xF2 fun f => f.getLsbD 3

/-- R235: `jc` loads its target into pc where CF is 1, else passes its two bytes, and changes nothing else. The check
of the target byte against PEND is the spec's own choice D12 (R141), and the state a fault leaves is its decision D13
(R262) in the form of log entry 3. -/
def Obligations.JcJumpsOnCarry : Prop :=
  (∀ T t, encodeWith T (.jc t) = some [T.jmpop .jc, t]) ∧
  (∀ t s, exec (.jc t) s = .next { s with pc := if s.flags.getLsbD 6 then t.toNat else s.pc + 2 }) ∧
  JumpStep .jc 0xF3 fun f => f.getLsbD 6

/-- R236: `jo` loads its target into pc where OF is 1, else passes its two bytes, and changes nothing else. The check
of the target byte against PEND is the spec's own choice D12 (R141), and the state a fault leaves is its decision D13
(R262) in the form of log entry 3. -/
def Obligations.JoJumpsOnOverflow : Prop :=
  (∀ T t, encodeWith T (.jo t) = some [T.jmpop .jo, t]) ∧
  (∀ t s, exec (.jo t) s = .next { s with pc := if s.flags.getLsbD 7 then t.toNat else s.pc + 2 }) ∧
  JumpStep .jo 0xF4 fun f => f.getLsbD 7

/-- R237: `jp` loads its target into pc where PF is 1, else passes its two bytes, and changes nothing else. The check
of the target byte against PEND is the spec's own choice D12 (R141), and the state a fault leaves is its decision D13
(R262) in the form of log entry 3. -/
def Obligations.JpJumpsOnEvenParity : Prop :=
  (∀ T t, encodeWith T (.jp t) = some [T.jmpop .jp, t]) ∧
  (∀ t s, exec (.jp t) s = .next { s with pc := if s.flags.getLsbD 4 then t.toNat else s.pc + 2 }) ∧
  JumpStep .jp 0xF5 fun f => f.getLsbD 4

/-- R238: `nop` changes nothing but pc, which passes its one byte; it faults only where it is fetched at or beyond
PEND; with an argument it is an assembly error. The state the fault leaves is the spec's own decision D13 (R262) in
the form of log entry 3. -/
def Obligations.NopOnlyAdvancesPc : Prop :=
  (∀ T, encodeWith T .nop = some [T.nopop]) ∧ z70ref.nopop = 0xFF ∧
  (∀ args, args ≠ [] → parseItem nopText args = .error .nopArguments) ∧
  (∀ s, exec .nop s = .next { s with pc := s.pc + 1 }) ∧
  ∀ (T : IsaTables) (s : State), s.fault = none → s.mem.read s.pc = T.nopop →
    stepWith T s = .next (if s.pc < s.pend.val then { s with pc := s.pc + 1 } else s.raise .fetchPastEnd (.address s.pc))

/-- R231: a taken jump to a target at or beyond PEND halts, one to a target below PEND goes on there, and a jump not
taken at PEND - 2 leaves pc = PEND and halts; none of these is a fault. R231 is the spec's own inference. -/
def Obligations.JumpTargetDecidesHalting : Prop :=
  ∀ (T : IsaTables) (s : State) (c : JumpOp), s.fault = none → s.pc + 1 < s.pend.val →
    decodeFirst T (s.mem.read s.pc) = .ok (.jump c) →
    ∃ t, stepWith T s = .next t ∧
      (taken c s.flags = true → t.pc = (s.mem.read (s.pc + 1)).toNat ∧
        t.status = if s.pend.val ≤ (s.mem.read (s.pc + 1)).toNat then .halted else .running) ∧
      (taken c s.flags = false → t.pc = s.pc + 2 ∧ t.status = if s.pc + 2 = s.pend.val then .halted else .running)

/-! ## Construction and the host -/

/-- R292: `new_cpu` with a 256-byte image and PEND in 0..256 gives the reset values, a memory that holds the image,
and the status Running exactly where PEND is not 0. The register values are the spec's own decisions D8 to D10 (log
entry 11). -/
def Obligations.NewCpuGivesTheResetState : Prop :=
  ∀ (image : List Byte) (labels : LabelTable) (p : Nat), image.length = 256 → p ≤ 256 →
    ∃ s, newCpu image labels p = .next s ∧ s.mem.toImage = image ∧ s.pend.val = p ∧
      (∀ r, s.reg r = 0x00) ∧ s.flags = 0x00 ∧ s.pc = 0 ∧ s.fault = none ∧ s.labels = labels ∧
      s.status = if 0 < p then .running else .halted

/-- R293: a launch with an image that is not 256 bytes, or with PEND over 256, constructs no core. The refusal is the
spec's own decision D28 (log entry 16). -/
def Obligations.BadLaunchIsRefused : Prop :=
  ∀ (image : List Byte) (labels : LabelTable) (p : Nat), image.length ≠ 256 ∨ 256 < p →
    ∃ e, newCpu image labels p = .refused e

/-- Every constructed core meets the invariant (R34, R292). The canonical form is the model's (log entry 9). -/
def Obligations.NewCpuMeetsTheInvariant : Prop :=
  ∀ (T : IsaTables) (image : List Byte) (labels : LabelTable) (p : Nat) (s : State),
    newCpu image labels p = .next s → s.Inv T

/-! ## The assembler -/

/-- R124, R125: the image is 256 bytes, the code stands from address 0 up to `code_end`, at most 256, and every byte
after it is 0x00. The zero fill and the limit are the spec's own decisions D18 and D19. -/
def Obligations.AssembledImageIsCodeThenZeros : Prop :=
  ∀ (T : IsaTables) (lines : List Text) (a : Assembly), assembleWith T lines = .ok a →
    a.codeEnd ≤ 256 ∧ a.image.length = 256 ∧
    a.image.take a.codeEnd = (a.listing.map ListingEntry.bytes).flatten ∧
    (a.listing.map ListingEntry.bytes).flatten.length = a.codeEnd ∧
    ∀ k, a.codeEnd ≤ k → k < 256 → a.image[k]? = some 0x00

/-- R126: each listing entry starts where the entries before it end, its bytes equal the image bytes at the same
addresses, and its text is a line of the source. Which text is quoted is log entry 14. -/
def Obligations.ListingBytesEqualImageBytes : Prop :=
  ∀ (T : IsaTables) (lines : List Text) (a : Assembly), assembleWith T lines = .ok a →
    ∀ before e after, a.listing = before ++ e :: after →
      e.addr = (before.map fun x => x.bytes.length).sum ∧
      (a.image.drop e.addr).take e.bytes.length = e.bytes ∧ e.text ∈ lines

/-- R129: under every ISA tables that meet R7, the bytes the assembler emits for an instruction decode to that
instruction: the mnemonic and operands of its source line, a jump's label replaced by its address. R129 is the spec's
own inference. -/
def Obligations.AssembledBytesDecodeToTheSourceInstruction : Prop :=
  ∀ (T : IsaTables) (lines : List Text) (a : Assembly), T.Valid → assembleWith T lines = .ok a →
    ∀ e ∈ a.listing, ∃ (p : ParsedLine) (mn : Text) (args : List Text) (item : AsmItem) (i : Instr),
      parseLine (trim (cutComment e.text)) = .ok p ∧ p.body = some (mn, args) ∧ parseItem mn args = .ok item ∧
      resolveItem a.labels item = .ok i ∧ i.wf T = true ∧ ∀ rest, decodeWith T (e.bytes ++ rest) = .ok (i, rest)

/-- R123: assembling fails if a label is defined twice. Which error is reported is open (log entry 13). -/
def Obligations.DuplicateLabelAbortsAssembly : Prop :=
  ∀ (T : IsaTables) (lines : List Text) (name : Text) (before between after : List (Text × Text)) (l l' : Text × Text)
    (p p' : ParsedLine), preprocess lines = before ++ l :: (between ++ l' :: after) →
    parseLine l.1 = .ok p → p.label = some name → parseLine l'.1 = .ok p' → p'.label = some name →
    ∃ e, assembleWith T lines = .error e

/-- R120: a jump to a label that no line defines aborts the assembly. That a target is only ever a label is the spec's
own decision D20. -/
def Obligations.UndefinedLabelAbortsAssembly : Prop :=
  ∀ (T : IsaTables) (lines : List Text) (l : Text × Text) (p : ParsedLine) (mn : Text) (args : List Text) (c : JumpOp)
    (name : Text), l ∈ preprocess lines → parseLine l.1 = .ok p → p.body = some (mn, args) →
    parseItem mn args = .ok (.jump c name) →
    (∀ l' ∈ preprocess lines, ∀ p', parseLine l'.1 = .ok p' → p'.label ≠ some name) →
    ∃ e, assembleWith T lines = .error e

/-- R112: a `-` before a hex-token without one gives the two's-complement negation of its value. -/
def Obligations.MinusNegatesAHexToken : Prop :=
  ∀ (t : Text) (k : Byte), hexToken t = some k → t.head? ≠ some '-' → hexToken ('-' :: t) = some (-k)

/-- R273, R293: `new_cpu` accepts every assembly's image, labels and `code_end`, and the first step of the core it
constructs runs the first listed instruction. R293 is the spec's own decisions D28 and D32; PEND as an argument is log
entry 16. -/
def Obligations.LaunchedCoreRunsTheFirstListedInstruction : Prop :=
  ∀ (T : IsaTables) (lines : List Text) (a : Assembly), T.Valid → assembleWith T lines = .ok a →
    ∃ s, newCpu a.image a.labels a.codeEnd = .next s ∧ s.mem.toImage = a.image ∧
      (a.listing = [] → s.status = .halted) ∧
      ∀ e rest, a.listing = e :: rest →
        s.status = .running ∧ ∃ i, decodeWith T e.bytes = .ok (i, []) ∧ stepWith T s = exec i s

/-- R275: the snapshot of a state shows its registers, pc, the five flags by their bit positions, all 256 bytes of
memory at their addresses, the status, and the fault record. The form of pc is the spec's own decision D27. -/
def Obligations.SnapshotShowsTheState : Prop :=
  ∀ s : State,
    s.snapshot.regA = s.regA ∧ s.snapshot.regB = s.regB ∧ s.snapshot.regI = s.regI ∧ s.snapshot.pc = s.pc ∧
    s.snapshot.flagOF = s.flags.getLsbD 7 ∧ s.snapshot.flagCF = s.flags.getLsbD 6 ∧
    s.snapshot.flagZF = s.flags.getLsbD 5 ∧ s.snapshot.flagPF = s.flags.getLsbD 4 ∧
    s.snapshot.flagSF = s.flags.getLsbD 3 ∧ s.snapshot.memory.length = 256 ∧
    (∀ a < 256, s.snapshot.memory[a]? = some (s.mem.read a)) ∧
    s.snapshot.status = s.status ∧ s.snapshot.fault = s.fault
end

