-- ==== Sys2Proof/Laws/Decode.lean ====
section
/-! SUPPORT. The searches of the decoder and the encoder, once: what each finds under tables that meet R7, the fields of a
first byte, and Z70-REF meeting R7 (R94). -/

namespace Sys2Proof

theorem mem_allNibbles (m : Nibble) : m ∈ allNibbles := by
  have h : ∀ m : Nibble, m ∈ allNibbles := by decide
  exact h m

theorem mem_allBinOps (o : BinOp) : o ∈ allBinOps := by cases o <;> decide

theorem mem_allUnOps (o : UnOp) : o ∈ allUnOps := by cases o <;> decide

theorem mem_allJumpOps (c : JumpOp) : c ∈ allJumpOps := by cases c <;> decide

/-- A search that accepts exactly one element of the list finds it. -/
theorem find?_eq_some_of_unique {α : Type} {l : List α} {p : α → Bool} {a : α} (ha : a ∈ l) (hp : p a = true)
    (hu : ∀ b, p b = true → b = a) : l.find? p = some a := by
  cases h : l.find? p with
  | none => exact absurd hp (by simpa using List.find?_eq_none.1 h a ha)
  | some b => rw [hu b (List.find?_some h)]

/-! ## The fields of a first byte (R81) -/

@[simp] theorem opcodeField_aluFirstByte (o m : Nibble) : opcodeField (aluFirstByte o m) = o := by
  revert o m
  decide

@[simp] theorem modeField_aluFirstByte (o m : Nibble) : modeField (aluFirstByte o m) = m := by
  revert o m
  decide

theorem aluFirstByte_fields (b : Byte) : aluFirstByte (opcodeField b) (modeField b) = b := by
  revert b
  decide

/-! ## The searches -/

section Valid
variable {T : IsaTables} (hT : T.Valid)
include hT

theorem find_jump (c : JumpOp) : allJumpOps.find? (fun c' => T.jmpop c' == T.jmpop c) = some c :=
  find?_eq_some_of_unique (mem_allJumpOps c) (by simp) fun c' h => hT.jmpop_injective c' c (by simpa using h)

theorem find_binOp (o : BinOp) : allBinOps.find? (fun o' => T.opc (.bin o') == T.opc (.bin o)) = some o :=
  find?_eq_some_of_unique (mem_allBinOps o) (by simp) fun o' h => by
    simpa using hT.opc_injective (.bin o') (.bin o) (by simpa using h)

theorem find_unOp (o : UnOp) : allUnOps.find? (fun o' => T.opc (.un o') == T.opc (.un o)) = some o :=
  find?_eq_some_of_unique (mem_allUnOps o) (by simp) fun o' h => by
    simpa using hT.opc_injective (.un o') (.un o) (by simpa using h)

theorem findBinaryMode_eq {d s : Operand} {m : Nibble} (h : T.bmode m = some (d.kind, s.kind)) :
    findBinaryMode T d s = some m :=
  find?_eq_some_of_unique (mem_allNibbles m) (by simp [h]) fun m' h' =>
    hT.bmode_injective m' m _ (by simpa using h') h

theorem findUnaryMode_eq {d : Operand} {m : Nibble} (h : T.umode m = some d.kind) : findUnaryMode T d = some m :=
  find?_eq_some_of_unique (mem_allNibbles m) (by simp [h]) fun m' h' =>
    hT.umode_injective m' m _ (by simpa using h') h

end Valid

theorem findBinaryMode_some {T : IsaTables} {d s : Operand} {m : Nibble} (h : findBinaryMode T d s = some m) :
    T.bmode m = some (d.kind, s.kind) := by
  simpa using List.find?_some h

theorem findUnaryMode_some {T : IsaTables} {d : Operand} {m : Nibble} (h : findUnaryMode T d = some m) :
    T.umode m = some d.kind := by
  simpa using List.find?_some h

theorem findBinaryMode_isSome (T : IsaTables) (d s : Operand) : (findBinaryMode T d s).isSome = T.hasBinary d s := by
  rw [Bool.eq_iff_iff, findBinaryMode, IsaTables.hasBinary, List.any_eq_true]
  simp

theorem findUnaryMode_isSome (T : IsaTables) (d : Operand) : (findUnaryMode T d).isSome = T.hasUnary d := by
  rw [Bool.eq_iff_iff, findUnaryMode, IsaTables.hasUnary, List.any_eq_true]
  simp

/-! ## Resolving an operand kind (R146) -/

@[simp] theorem kind_resolve (x : Byte) (k : OperandKind) : (k.resolve x).kind = k := by
  cases k <;> rfl

theorem extraBytes_resolve (x : Byte) (k : OperandKind) : (k.resolve x).extraBytes = if k.isExtra then [x] else [] := by
  cases k <;> rfl

theorem resolve_kind {o : Operand} {x : Byte} (h : o.extraBytes = [x] ∨ o.kind.isExtra = false) :
    o.kind.resolve x = o := by
  cases o <;> simp_all [Operand.kind, OperandKind.resolve, Operand.extraBytes, OperandKind.isExtra]

/-! ## Instructions by operation and operands -/

/-- Every instruction is a binary one, a unary one, a jump or `nop` (R80). -/
theorem Instr.cases_by_form (i : Instr) : (∃ o d s, i = Instr.binary o d s) ∨ (∃ o d, i = Instr.unary o d) ∨
    (∃ c t, i = Instr.jump c t) ∨ i = .nop := by
  cases i
  case add d s => exact .inl ⟨.add, d, s, rfl⟩
  case sub d s => exact .inl ⟨.sub, d, s, rfl⟩
  case cmp d s => exact .inl ⟨.cmp, d, s, rfl⟩
  case and d s => exact .inl ⟨.and, d, s, rfl⟩
  case or d s => exact .inl ⟨.or, d, s, rfl⟩
  case mov d s => exact .inl ⟨.mov, d, s, rfl⟩
  case inc d => exact .inr (.inl ⟨.inc, d, rfl⟩)
  case dec d => exact .inr (.inl ⟨.dec, d, rfl⟩)
  case not d => exact .inr (.inl ⟨.not, d, rfl⟩)
  case shr d => exact .inr (.inl ⟨.shr, d, rfl⟩)
  case shl d => exact .inr (.inl ⟨.shl, d, rfl⟩)
  case jmp t => exact .inr (.inr (.inl ⟨.jmp, t, rfl⟩))
  case jz t => exact .inr (.inr (.inl ⟨.jz, t, rfl⟩))
  case js t => exact .inr (.inr (.inl ⟨.js, t, rfl⟩))
  case jc t => exact .inr (.inr (.inl ⟨.jc, t, rfl⟩))
  case jo t => exact .inr (.inr (.inl ⟨.jo, t, rfl⟩))
  case jp t => exact .inr (.inr (.inl ⟨.jp, t, rfl⟩))
  case nop => exact .inr (.inr (.inr rfl))

theorem encodeWith_binary (T : IsaTables) (o : BinOp) (d s : Operand) :
    encodeWith T (Instr.binary o d s) = encodeBinary T o d s := by
  cases o <;> rfl

theorem encodeWith_unary (T : IsaTables) (o : UnOp) (d : Operand) :
    encodeWith T (Instr.unary o d) = encodeUnary T o d := by
  cases o <;> rfl

theorem encodeWith_jump (T : IsaTables) (c : JumpOp) (t : Byte) :
    encodeWith T (Instr.jump c t) = some [T.jmpop c, t] := by
  cases c <;> rfl

/-! ## The decoder of the first byte (R85) -/

theorem decodeFirst_nop (T : IsaTables) : decodeFirst T T.nopop = .ok .nop := by
  simp [decodeFirst]

theorem decodeFirst_jump {T : IsaTables} (hT : T.Valid) (c : JumpOp) :
    decodeFirst T (T.jmpop c) = .ok (.jump c) := by
  simp [decodeFirst, hT.nopop_not_jump, find_jump hT]

theorem decodeFirst_binary {T : IsaTables} (hT : T.Valid) (o : BinOp) {m : Nibble} {dk sk : OperandKind}
    (h : T.bmode m = some (dk, sk)) : decodeFirst T (aluFirstByte (T.opc (.bin o)) m) = .ok (.binary o dk sk) := by
  obtain ⟨hnop, hjump⟩ := hT.binary_not_reserved o m _ h
  have hj : allJumpOps.find? (fun c => T.jmpop c == aluFirstByte (T.opc (.bin o)) m) = none := by
    simpa using fun c _ hc => hjump c hc.symm
  rw [decodeFirst, if_neg (by exact hnop), hj]
  simp [find_binOp hT, h]

theorem decodeFirst_unary {T : IsaTables} (hT : T.Valid) (o : UnOp) {m : Nibble} {dk : OperandKind}
    (h : T.umode m = some dk) : decodeFirst T (aluFirstByte (T.opc (.un o)) m) = .ok (.unary o dk) := by
  obtain ⟨hnop, hjump⟩ := hT.unary_not_reserved o m _ h
  have hj : allJumpOps.find? (fun c => T.jmpop c == aluFirstByte (T.opc (.un o)) m) = none := by
    simpa using fun c _ hc => hjump c hc.symm
  have hb : allBinOps.find? (fun b => T.opc (.bin b) == T.opc (.un o)) = none := by
    simpa using fun b _ hc => by cases hT.opc_injective _ _ hc
  rw [decodeFirst, if_neg (by exact hnop), hj]
  simp [hb, find_unOp hT, h]

/-- All that a legal first byte can be: it is the one byte of its form. -/
theorem decodeFirst_cases {T : IsaTables} {b : Byte} {f : Form} (h : decodeFirst T b = .ok f) :
    (b = T.nopop ∧ f = .nop) ∨ (∃ c, b = T.jmpop c ∧ f = .jump c) ∨
    (∃ o dk sk, b = aluFirstByte (T.opc (.bin o)) (modeField b) ∧ T.bmode (modeField b) = some (dk, sk) ∧
      f = .binary o dk sk) ∨
    (∃ o dk, b = aluFirstByte (T.opc (.un o)) (modeField b) ∧ T.umode (modeField b) = some dk ∧ f = .unary o dk) := by
  unfold decodeFirst at h
  split at h
  · cases h
    exact .inl ⟨‹_›, rfl⟩
  split at h
  · rename_i c hc
    cases h
    have hb := List.find?_some hc
    exact .inr (.inl ⟨c, (beq_iff_eq.1 hb).symm, rfl⟩)
  split at h
  · rename_i o ho
    have hop := List.find?_some ho
    split at h
    · rename_i dk sk hm
      cases h
      exact .inr (.inr (.inl ⟨o, dk, sk, by rw [beq_iff_eq.1 hop, aluFirstByte_fields], hm, rfl⟩))
    · cases h
  split at h
  · rename_i o ho
    have hop := List.find?_some ho
    split at h
    · rename_i dk hm
      cases h
      exact .inr (.inr (.inr ⟨o, dk, by rw [beq_iff_eq.1 hop, aluFirstByte_fields], hm, rfl⟩))
    · cases h
  · cases h

/-! ## Z70-REF meets R7 (R94) -/

theorem z70ref_valid : z70ref.Valid where
  opc_injective := by
    rintro (o | o) (o' | o') <;> cases o <;> cases o' <;> decide
  bmode_one_extra := by
    intro m dk sk h
    have := (by decide : ∀ m, (z70ref.bmode m).all (fun r => !(r.1.isExtra && r.2.isExtra)) = true) m
    rw [h] at this
    exact (Bool.not_eq_true' _).mp this
  bmode_dst_not_imm := by
    intro m sk h
    have := (by decide : ∀ m, (z70ref.bmode m).all (fun r => r.1 != .imm) = true) m
    simp [h] at this
  umode_dst := by
    intro m k h
    have := (by decide : ∀ m, (z70ref.umode m).all (fun k => !k.isExtra) = true) m
    simpa [h] using this
  umode_total := by
    rintro (r | _ | _ | _) hk
    · cases r
      · exact ⟨0, by decide⟩
      · exact ⟨1, by decide⟩
      · exact ⟨2, by decide⟩
    · exact ⟨3, by decide⟩
    · cases hk
    · cases hk
  umode_injective := by
    intro m m' k h h'
    have := (by decide : ∀ m m', z70ref.umode m = z70ref.umode m' → (z70ref.umode m).isSome = true → m = m') m m'
    exact this (h.trans h'.symm) (by simp [h])
  bmode_injective := by
    intro m m' row h h'
    have := (by decide : ∀ m m', z70ref.bmode m = z70ref.bmode m' → (z70ref.bmode m).isSome = true → m = m') m m'
    exact this (h.trans h'.symm) (by simp [h])
  jmpop_injective := by
    intro c c'
    cases c <;> cases c' <;> decide
  nopop_not_jump := by
    intro c
    cases c <;> decide
  binary_not_reserved := by
    intro o m row _
    have hm := (by decide : ∀ m : Nibble, ∀ o ∈ allBinOps, (refOpc (.bin o) ++ m : Byte).toNat < 0xF0) m o (mem_allBinOps o)
    refine ⟨fun h => ?_, fun c h => ?_⟩
    · rw [show (z70ref.opc (.bin o) ++ m : Byte) = refOpc (.bin o) ++ m from rfl] at h
      rw [h] at hm
      exact absurd hm (by decide)
    · rw [show (z70ref.opc (.bin o) ++ m : Byte) = refOpc (.bin o) ++ m from rfl] at h
      rw [h] at hm
      revert hm
      cases c <;> decide
  unary_not_reserved := by
    intro o m k _
    have hm := (by decide : ∀ m : Nibble, ∀ o ∈ allUnOps, (refOpc (.un o) ++ m : Byte).toNat < 0xF0) m o (mem_allUnOps o)
    refine ⟨fun h => ?_, fun c h => ?_⟩
    · rw [show (z70ref.opc (.un o) ++ m : Byte) = refOpc (.un o) ++ m from rfl] at h
      rw [h] at hm
      exact absurd hm (by decide)
    · rw [show (z70ref.opc (.un o) ++ m : Byte) = refOpc (.un o) ++ m from rfl] at h
      rw [h] at hm
      revert hm
      cases c <;> decide
  bmode_examples := by
    have h : ∀ row ∈ ([(.reg .A, .imm), (.reg .B, .imm), (.reg .I, .imm), (.reg .A, .reg .B), (.indI, .reg .A),
        (.reg .A, .indI)] : List (OperandKind × OperandKind)), ∃ m ∈ allNibbles, z70ref.bmode m = some row := by decide
    exact fun row hr => (h row hr).imp fun _ hm => hm.2

end Sys2Proof
end

