-- ==== Sys2Proof/Laws/PerInstr.lean ====
section
/-! SUPPORT. Families of facts about every instruction as text: an instruction has an encoding exactly when it is well
formed, under any ISA tables. One lemma per constructor. -/

namespace Sys2Proof.Laws.EncodesIffWellFormed

/-- The instruction has an encoding exactly when its operands match a mode row (R115, R116, R119-R121). -/
def Statement (i : Instr) : Prop := ∀ T : IsaTables, (encodeWith T i).isSome = i.wf T

theorem of_binary (T : IsaTables) (o : BinOp) (d s : Operand) : (encodeBinary T o d s).isSome = T.hasBinary d s := by
  rw [encodeBinary, Option.isSome_map, findBinaryMode_isSome]

theorem of_unary (T : IsaTables) (o : UnOp) (d : Operand) : (encodeUnary T o d).isSome = T.hasUnary d := by
  rw [encodeUnary, Option.isSome_map, findUnaryMode_isSome]

theorem add (d s : Operand) : Statement (.add d s) := fun T => of_binary T .add d s
theorem sub (d s : Operand) : Statement (.sub d s) := fun T => of_binary T .sub d s
theorem cmp (d s : Operand) : Statement (.cmp d s) := fun T => of_binary T .cmp d s
theorem and (d s : Operand) : Statement (.and d s) := fun T => of_binary T .and d s
theorem or (d s : Operand) : Statement (.or d s) := fun T => of_binary T .or d s
theorem mov (d s : Operand) : Statement (.mov d s) := fun T => of_binary T .mov d s
theorem inc (d : Operand) : Statement (.inc d) := fun T => of_unary T .inc d
theorem dec (d : Operand) : Statement (.dec d) := fun T => of_unary T .dec d
theorem not (d : Operand) : Statement (.not d) := fun T => of_unary T .not d
theorem shr (d : Operand) : Statement (.shr d) := fun T => of_unary T .shr d
theorem shl (d : Operand) : Statement (.shl d) := fun T => of_unary T .shl d
theorem jmp (t : Byte) : Statement (.jmp t) := fun _ => rfl
theorem jz (t : Byte) : Statement (.jz t) := fun _ => rfl
theorem js (t : Byte) : Statement (.js t) := fun _ => rfl
theorem jc (t : Byte) : Statement (.jc t) := fun _ => rfl
theorem jo (t : Byte) : Statement (.jo t) := fun _ => rfl
theorem jp (t : Byte) : Statement (.jp t) := fun _ => rfl
theorem nop : Statement .nop := fun _ => rfl

end Sys2Proof.Laws.EncodesIffWellFormed
end

