-- ==== Sys2Proof/Laws/Assembler.lean ====
section
/-! SUPPORT. What each pass of the assembler can do, said once (R117-R126). -/

namespace Sys2Proof.Machine

/-- A bind of `Except` that answers has answered in both parts. -/
theorem except_bind_ok {ε α β : Type} {x : Except ε α} {f : α → Except ε β} {b : β} (h : (x >>= f) = .ok b) :
    ∃ a, x = .ok a ∧ f a = .ok b := by
  cases x with
  | error e => cases h
  | ok a => exact ⟨a, rfl, h⟩

/-- What an assembly that answers has done. -/
theorem assembleWith_ok {T : IsaTables} {lines : List Text} {a : Assembly} (h : assembleWith T lines = .ok a) :
    ∃ first listing, firstPass T (preprocess lines) 0 [] = .ok first ∧ first.codeEnd ≤ memorySize ∧
      secondPass T first.labels first.items 0 = .ok listing ∧
      a = { image := imageOf (listingCode listing), labels := first.labels, listing := listing, codeEnd := first.codeEnd } := by
  obtain ⟨first, h1, h⟩ := except_bind_ok h
  split at h
  · cases h
  obtain ⟨listing, h2, h⟩ := except_bind_ok h
  cases h
  exact ⟨first, listing, h1, Nat.not_lt.1 ‹_›, h2, rfl⟩

/-- What the first pass does with one line that it accepts: it binds the line's label, and either the line holds no
instruction, or its item is sized and put in front of the rest. -/
theorem firstPass_cons {T : IsaTables} {line original : Text} {lines : List (Text × Text)} {addr : Nat}
    {labels : LabelTable} {first : FirstPass} (h : firstPass T ((line, original) :: lines) addr labels = .ok first) :
    ∃ p labels', parseLine line = .ok p ∧ bindLabel labels addr p.label = .ok labels' ∧
      ((p.body = none ∧ firstPass T lines addr labels' = .ok first) ∨
       ∃ mn args item size rest, p.body = some (mn, args) ∧ parseItem mn args = .ok item ∧ itemSize T item = .ok size ∧
         firstPass T lines (addr + size) labels' = .ok rest ∧
         first = { rest with items := (item, original) :: rest.items }) := by
  rw [firstPass] at h
  obtain ⟨p, hp, h⟩ := except_bind_ok h
  obtain ⟨labels', hl, h⟩ := except_bind_ok h
  refine ⟨p, labels', hp, hl, ?_⟩
  split at h
  · exact .inl ⟨‹_›, h⟩
  · rename_i mn args hb
    obtain ⟨item, hi, h⟩ := except_bind_ok h
    obtain ⟨size, hs, h⟩ := except_bind_ok h
    obtain ⟨rest, hr, h⟩ := except_bind_ok h
    cases h
    exact .inr ⟨mn, args, item, size, rest, hb, hi, hs, hr, rfl⟩

/-- What the second pass does with one item that it accepts. -/
theorem secondPass_cons {T : IsaTables} {labels : LabelTable} {item : AsmItem} {original : Text}
    {items : List (AsmItem × Text)} {addr : Nat} {listing : List ListingEntry}
    (h : secondPass T labels ((item, original) :: items) addr = .ok listing) :
    ∃ bytes rest, emitItem T labels item = .ok bytes ∧ secondPass T labels items (addr + bytes.length) = .ok rest ∧
      listing = { addr := addr, bytes := bytes, text := original } :: rest := by
  rw [secondPass] at h
  obtain ⟨bytes, hb, h⟩ := except_bind_ok h
  obtain ⟨rest, hr, h⟩ := except_bind_ok h
  cases h
  exact ⟨bytes, rest, hb, hr, rfl⟩

/-- What emitting an item does: its instruction, with a jump's label looked up, encoded. -/
theorem emitItem_ok {T : IsaTables} {labels : LabelTable} {item : AsmItem} {bytes : List Byte}
    (h : emitItem T labels item = .ok bytes) : ∃ i, resolveItem labels item = .ok i ∧ encodeWith T i = some bytes := by
  obtain ⟨i, hi, h⟩ := except_bind_ok h
  refine ⟨i, hi, ?_⟩
  split at h
  · cases h
    assumption
  · cases h

/-- The size pass counts the bytes that the second pass emits (R117). -/
theorem itemSize_of_emitItem {T : IsaTables} {labels : LabelTable} {item : AsmItem} {bytes : List Byte}
    (h : emitItem T labels item = .ok bytes) : itemSize T item = .ok bytes.length := by
  obtain ⟨i, hi, he⟩ := emitItem_ok h
  cases item with
  | instr j =>
    cases hi
    simp [itemSize, he]
  | jump c l =>
    simp only [resolveItem] at hi
    split at hi
    · cases hi
    · split at hi
      · cases hi
        cases c <;> cases he <;> rfl
      · cases hi

/-- A preprocessed line is a source line with its comment cut, trimmed (R110). -/
theorem mem_preprocess {lines : List Text} {l : Text × Text} (h : l ∈ preprocess lines) :
    l.2 ∈ lines ∧ l.1 = trim (cutComment l.2) := by
  simp only [preprocess, List.mem_filter, List.mem_map] at h
  obtain ⟨⟨x, hx, rfl⟩, -⟩ := h
  exact ⟨hx, rfl⟩

end Sys2Proof.Machine
end

