-- ==== Sys2Proof/Laws/Flags.lean ====
section
/-! SUPPORT. What the flag register's accessors read after the flag hook (R29, R150), and the numeric readings of the ALU's
inputs (R10, R149). -/

namespace Sys2Proof.Machine

/-- The fields of five flag bits in front of three reserved bits (R29). -/
theorem pack_fields : ∀ (o c z p g : Bool) (x : BitVec 3),
    let w : Byte := BitVec.ofBool o ++ BitVec.ofBool c ++ BitVec.ofBool z ++ BitVec.ofBool p ++ BitVec.ofBool g ++ x
    w.getLsbD 7 = o ∧ w.getLsbD 6 = c ∧ w.getLsbD 5 = z ∧ w.getLsbD 4 = p ∧ w.getLsbD 3 = g ∧ w.extractLsb' 0 3 = x := by
  decide

section Pack
variable (f : Byte) (o c z p g : Bool)

@[simp] theorem flagOF_packFlags : flagOF (packFlags f o c z p g) = o := (pack_fields o c z p g (flagReserved f)).1

@[simp] theorem flagCF_packFlags : flagCF (packFlags f o c z p g) = c := (pack_fields o c z p g (flagReserved f)).2.1

@[simp] theorem flagZF_packFlags : flagZF (packFlags f o c z p g) = z :=
  (pack_fields o c z p g (flagReserved f)).2.2.1

@[simp] theorem flagPF_packFlags : flagPF (packFlags f o c z p g) = p :=
  (pack_fields o c z p g (flagReserved f)).2.2.2.1

@[simp] theorem flagSF_packFlags : flagSF (packFlags f o c z p g) = g :=
  (pack_fields o c z p g (flagReserved f)).2.2.2.2.1

@[simp] theorem flagReserved_packFlags : flagReserved (packFlags f o c z p g) = flagReserved f :=
  (pack_fields o c z p g (flagReserved f)).2.2.2.2.2

end Pack

section Hook
variable (f r : Byte) (carry overflow logical : Bool)

@[simp] theorem flagOF_hook : flagOF (hook f r carry overflow logical) = (!logical && overflow) := by
  simp [hook]

@[simp] theorem flagCF_hook : flagCF (hook f r carry overflow logical) = (!logical && carry) := by
  simp [hook]

@[simp] theorem flagZF_hook : flagZF (hook f r carry overflow logical) = (r == 0) := by
  simp [hook]

@[simp] theorem flagPF_hook : flagPF (hook f r carry overflow logical) = parity r := by
  simp [hook]

@[simp] theorem flagSF_hook : flagSF (hook f r carry overflow logical) = r.getLsbD 7 := by
  simp [hook]

@[simp] theorem flagReserved_hook : flagReserved (hook f r carry overflow logical) = flagReserved f := by
  simp [hook]

end Hook

/-- The two readings of a byte as a signed number agree (R10). -/
theorem signed8_eq_toInt (v : Byte) : signed8 v = v.toInt := by
  unfold signed8
  rw [BitVec.toInt_eq_toNat_cond]
  split <;> split <;> omega

/-- Bit 7 of a byte as a comparison (R8). -/
theorem getLsbD_seven (v : Byte) : v.getLsbD 7 = decide (128 ≤ v.toNat) := by
  have h : ∀ v : Byte, v.getLsbD 7 = decide (128 ≤ v.toNat) := by decide
  exact h v

/-- Every ALU operation keeps bits 2..0 of FLAGS: they are written by no operation (R29, R150). -/
theorem alu_keeps_reserved (d s f : Byte) (w : Bool) :
    flagReserved (aluAdd d s f).flags = flagReserved f ∧ flagReserved (aluSub w d s f).flags = flagReserved f ∧
    flagReserved (aluAnd d s f).flags = flagReserved f ∧ flagReserved (aluOr d s f).flags = flagReserved f ∧
    flagReserved (aluPass s f).flags = flagReserved f ∧ flagReserved (aluInc d f).flags = flagReserved f ∧
    flagReserved (aluDec d f).flags = flagReserved f ∧ flagReserved (aluNot d f).flags = flagReserved f ∧
    flagReserved (aluShr d f).flags = flagReserved f ∧ flagReserved (aluShl d f).flags = flagReserved f := by
  simp [aluAdd, aluSub, aluAnd, aluOr, aluPass, aluInc, aluDec, aluNot, aluShr, aluShl]

end Sys2Proof.Machine
end

