-- ==== Sys2Proof/Laws/Memory.lean ====
section
/-! SUPPORT. The memory operations keep the canonical form, a read after a write gives the byte written, and equal reads
are equal memories (R32, R51, R52). -/

namespace Sys2Proof.Machine

theorem Memory.wf_nil : Memory.wf [] := ⟨List.Pairwise.nil, by simp⟩

theorem Memory.wf_cons {k : Nat} {w : Byte} {m : Memory} :
    Memory.wf ((k, w) :: m) ↔ (∀ c ∈ m, k < c.1) ∧ (k < memorySize ∧ w ≠ unlistedByte) ∧ Memory.wf m := by
  simp only [Memory.wf, List.pairwise_cons, List.mem_cons, forall_eq_or_imp]
  tauto

/-- An address below every listed one reads as unlisted. -/
theorem Memory.read_of_lt {m : Memory} {a : Nat} (h : ∀ c ∈ m, a < c.1) : m.read a = unlistedByte := by
  induction m with
  | nil => rfl
  | cons c m ih =>
    obtain ⟨k, w⟩ := c
    have hk : a < k := h (k, w) List.mem_cons_self
    simp [Memory.read, Nat.ne_of_gt hk, ih fun c hc => h c (List.mem_cons_of_mem _ hc)]

theorem Memory.read_cons (a : Nat) (v : Byte) (m : Memory) (b : Nat) (h : ∀ c ∈ m, a < c.1) :
    (Memory.cons a v m).read b = if b = a then v else m.read b := by
  unfold Memory.cons
  split
  · rename_i hv
    split
    · rename_i hb
      rw [hv, hb]
      exact Memory.read_of_lt h
    · rfl
  · by_cases hb : b = a
    · simp [Memory.read, hb]
    · simp [Memory.read, hb, Ne.symm hb]

theorem Memory.mem_cons_imp {a : Nat} {v : Byte} {m : Memory} {c : Host.Cell} (h : c ∈ Memory.cons a v m) :
    c = (a, v) ∨ c ∈ m := by
  unfold Memory.cons at h
  split at h
  · exact .inr h
  · simpa using h

theorem Memory.cons_wf {a : Nat} {v : Byte} {m : Memory} (ha : a < memorySize) (hm : m.wf) (h : ∀ c ∈ m, a < c.1) :
    (Memory.cons a v m).wf := by
  unfold Memory.cons
  split
  · exact hm
  · exact Memory.wf_cons.2 ⟨h, ⟨ha, ‹_›⟩, hm⟩

/-- Every pair of a written memory is the byte written or was there before. -/
theorem Memory.mem_write_imp {m : Memory} {a : Nat} {v : Byte} {c : Host.Cell} (h : c ∈ m.write a v) :
    c = (a, v) ∨ c ∈ m := by
  induction m with
  | nil => simpa using Memory.mem_cons_imp h
  | cons p m ih =>
    obtain ⟨k, w⟩ := p
    simp only [Memory.write] at h
    split at h
    · rcases List.mem_cons.1 h with rfl | h
      · exact .inr List.mem_cons_self
      · exact (ih h).imp_right (List.mem_cons_of_mem _)
    · split at h
      · exact (Memory.mem_cons_imp h).imp_right (List.mem_cons_of_mem _)
      · exact Memory.mem_cons_imp h

/-- A write at an address of the address space keeps the canonical form. -/
theorem Memory.write_wf {m : Memory} {a : Nat} {v : Byte} (hm : m.wf) (ha : a < memorySize) : (m.write a v).wf := by
  induction m with
  | nil => exact Memory.cons_wf ha Memory.wf_nil (by simp)
  | cons p m ih =>
    obtain ⟨k, w⟩ := p
    obtain ⟨hlt, hkw, hm'⟩ := Memory.wf_cons.1 hm
    simp only [Memory.write]
    split
    · rename_i hka
      refine Memory.wf_cons.2 ⟨fun c hc => ?_, hkw, ih hm'⟩
      rcases Memory.mem_write_imp hc with rfl | hc
      · exact hka
      · exact hlt c hc
    · split
      · rename_i hka
        subst hka
        exact Memory.cons_wf ha hm' hlt
      · refine Memory.cons_wf ha hm fun c hc => ?_
        rcases List.mem_cons.1 hc with rfl | hc
        · simp only
          omega
        · have := hlt c hc
          omega

/-- What a write changes: the byte at its address, and no other (R51, R52). -/
theorem Memory.read_write {m : Memory} (hm : m.wf) (a : Nat) (v : Byte) (b : Nat) :
    (m.write a v).read b = if b = a then v else m.read b := by
  induction m with
  | nil => exact Memory.read_cons a v [] b (by simp)
  | cons p m ih =>
    obtain ⟨k, w⟩ := p
    obtain ⟨hlt, -, hm'⟩ := Memory.wf_cons.1 hm
    simp only [Memory.write]
    split
    · rename_i hka
      by_cases hb : k = b
      · simp [Memory.read, hb, show ¬ b = a by omega]
      · simp [Memory.read, hb, ih hm']
    · split
      · rename_i hka
        subst hka
        rw [Memory.read_cons k v m b hlt]
        by_cases hb : b = k
        · simp [hb]
        · simp [Memory.read, hb, Ne.symm hb]
      · refine Memory.read_cons a v _ b fun c hc => ?_
        rcases List.mem_cons.1 hc with rfl | hc
        · simp only
          omega
        · have := hlt c hc
          omega

theorem Memory.ofBytesAt_ge {a : Nat} {bytes : List Byte} {c : Host.Cell} (h : c ∈ Memory.ofBytesAt a bytes) :
    a ≤ c.1 ∧ c.1 < a + bytes.length := by
  induction bytes generalizing a with
  | nil => simp [Memory.ofBytesAt] at h
  | cons b bytes ih =>
    rcases Memory.mem_cons_imp h with rfl | h
    · simp
    · have := ih h
      simp only [List.length_cons]
      omega

/-- The memory of an image is in canonical form. -/
theorem Memory.ofBytesAt_wf {a : Nat} {bytes : List Byte} (h : a + bytes.length ≤ memorySize) :
    (Memory.ofBytesAt a bytes).wf := by
  induction bytes generalizing a with
  | nil => exact Memory.wf_nil
  | cons b bytes ih =>
    simp only [List.length_cons] at h
    refine Memory.cons_wf (by omega) (ih (by omega)) fun c hc => ?_
    have := (Memory.ofBytesAt_ge hc).1
    omega

/-- What the memory of an image holds: its bytes, and the unlisted byte elsewhere. -/
theorem Memory.read_ofBytesAt (a : Nat) (bytes : List Byte) (b : Nat) :
    (Memory.ofBytesAt a bytes).read b = if a ≤ b then bytes.getD (b - a) unlistedByte else unlistedByte := by
  induction bytes generalizing a with
  | nil => simp [Memory.ofBytesAt, Memory.read]
  | cons x bytes ih =>
    rw [Memory.ofBytesAt, Memory.read_cons _ _ _ _ fun c hc => by have := (Memory.ofBytesAt_ge hc).1; omega, ih]
    by_cases h : b = a
    · simp [h]
    · by_cases h' : a + 1 ≤ b
      · have : b - a = (b - (a + 1)) + 1 := by omega
        simp [h, h', this, show a ≤ b by omega]
      · simp [h, h', show ¬ a ≤ b by omega]

end Sys2Proof.Machine
end

