-- ==== Sys2Proof/Laws/HostInterface.lean ====
section
/-! SUPPORT. What construction can do (R292, R293), and the memory snapshot of an image (R275). -/

namespace Sys2Proof.Machine

/-- The memory snapshot of an image of 256 bytes is the image (R291). -/
theorem Memory.toImage_ofImage {image : List Byte} (h : image.length = memorySize) :
    (Memory.ofImage image).toImage = image := by
  apply List.ext_getElem
  · simp [Memory.toImage, h]
  · intro n _ hn
    simp [Memory.toImage, Memory.ofImage, Memory.read_ofBytesAt, hn]

/-- All that `newCpu` can do: refuse, or construct the reset state with the image, PEND and labels given. -/
theorem newCpu_cases {image : List Byte} {labels : LabelTable} {p : Nat} {s : State}
    (h : newCpu image labels p = .next s) : image.length = memorySize ∧ ∃ hp : p < 257,
      s = { State.reset with mem := Memory.ofImage image, pend := ⟨p, hp⟩, labels := labels } := by
  unfold newCpu at h
  split at h
  · cases h
  · split at h
    · cases h
      exact ⟨Decidable.not_not.1 ‹_›, ‹_›, rfl⟩
    · cases h

end Sys2Proof.Machine
end

