-- ==== Sys2Proof/Laws/State.lean ====
section
/-! SUPPORT. One lemma per field per state update, each true by `rfl` (register writes: by cases on the register), so that
no proof unfolds a record update. -/

namespace Sys2Proof.Machine

/-! ## store -/

@[simp] theorem State.store_regA (s : State) (a : Nat) (v : Byte) : (s.store a v).regA = s.regA := rfl
@[simp] theorem State.store_regB (s : State) (a : Nat) (v : Byte) : (s.store a v).regB = s.regB := rfl
@[simp] theorem State.store_regI (s : State) (a : Nat) (v : Byte) : (s.store a v).regI = s.regI := rfl
@[simp] theorem State.store_flags (s : State) (a : Nat) (v : Byte) : (s.store a v).flags = s.flags := rfl
@[simp] theorem State.store_pc (s : State) (a : Nat) (v : Byte) : (s.store a v).pc = s.pc := rfl
@[simp] theorem State.store_mem (s : State) (a : Nat) (v : Byte) : (s.store a v).mem = s.mem.write a v := rfl
@[simp] theorem State.store_pend (s : State) (a : Nat) (v : Byte) : (s.store a v).pend = s.pend := rfl
@[simp] theorem State.store_fault (s : State) (a : Nat) (v : Byte) : (s.store a v).fault = s.fault := rfl
@[simp] theorem State.store_labels (s : State) (a : Nat) (v : Byte) : (s.store a v).labels = s.labels := rfl

/-! ## setPc -/

@[simp] theorem State.setPc_regA (s : State) (p : Nat) : (s.setPc p).regA = s.regA := rfl
@[simp] theorem State.setPc_regB (s : State) (p : Nat) : (s.setPc p).regB = s.regB := rfl
@[simp] theorem State.setPc_regI (s : State) (p : Nat) : (s.setPc p).regI = s.regI := rfl
@[simp] theorem State.setPc_flags (s : State) (p : Nat) : (s.setPc p).flags = s.flags := rfl
@[simp] theorem State.setPc_pc (s : State) (p : Nat) : (s.setPc p).pc = p := rfl
@[simp] theorem State.setPc_mem (s : State) (p : Nat) : (s.setPc p).mem = s.mem := rfl
@[simp] theorem State.setPc_pend (s : State) (p : Nat) : (s.setPc p).pend = s.pend := rfl
@[simp] theorem State.setPc_fault (s : State) (p : Nat) : (s.setPc p).fault = s.fault := rfl
@[simp] theorem State.setPc_labels (s : State) (p : Nat) : (s.setPc p).labels = s.labels := rfl

/-! ## setFlags -/

@[simp] theorem State.setFlags_regA (s : State) (f : Byte) : (s.setFlags f).regA = s.regA := rfl
@[simp] theorem State.setFlags_regB (s : State) (f : Byte) : (s.setFlags f).regB = s.regB := rfl
@[simp] theorem State.setFlags_regI (s : State) (f : Byte) : (s.setFlags f).regI = s.regI := rfl
@[simp] theorem State.setFlags_flags (s : State) (f : Byte) : (s.setFlags f).flags = f := rfl
@[simp] theorem State.setFlags_pc (s : State) (f : Byte) : (s.setFlags f).pc = s.pc := rfl
@[simp] theorem State.setFlags_mem (s : State) (f : Byte) : (s.setFlags f).mem = s.mem := rfl
@[simp] theorem State.setFlags_pend (s : State) (f : Byte) : (s.setFlags f).pend = s.pend := rfl
@[simp] theorem State.setFlags_fault (s : State) (f : Byte) : (s.setFlags f).fault = s.fault := rfl
@[simp] theorem State.setFlags_labels (s : State) (f : Byte) : (s.setFlags f).labels = s.labels := rfl

/-! ## raise -/

@[simp] theorem State.raise_regA (s : State) (c : FaultCause) (i : FaultInfo) : (s.raise c i).regA = s.regA := rfl
@[simp] theorem State.raise_regB (s : State) (c : FaultCause) (i : FaultInfo) : (s.raise c i).regB = s.regB := rfl
@[simp] theorem State.raise_regI (s : State) (c : FaultCause) (i : FaultInfo) : (s.raise c i).regI = s.regI := rfl
@[simp] theorem State.raise_flags (s : State) (c : FaultCause) (i : FaultInfo) : (s.raise c i).flags = s.flags := rfl
@[simp] theorem State.raise_pc (s : State) (c : FaultCause) (i : FaultInfo) : (s.raise c i).pc = s.pc := rfl
@[simp] theorem State.raise_mem (s : State) (c : FaultCause) (i : FaultInfo) : (s.raise c i).mem = s.mem := rfl
@[simp] theorem State.raise_pend (s : State) (c : FaultCause) (i : FaultInfo) : (s.raise c i).pend = s.pend := rfl
@[simp] theorem State.raise_fault (s : State) (c : FaultCause) (i : FaultInfo) : (s.raise c i).fault = some { cause := c, pc0 := s.pc, info := i } := rfl
@[simp] theorem State.raise_labels (s : State) (c : FaultCause) (i : FaultInfo) : (s.raise c i).labels = s.labels := rfl

/-! ## setReg -/

@[simp] theorem State.setReg_flags (s : State) (v : Byte) (r : Reg) : (s.setReg v r).flags = s.flags := by cases r <;> rfl
@[simp] theorem State.setReg_pc (s : State) (v : Byte) (r : Reg) : (s.setReg v r).pc = s.pc := by cases r <;> rfl
@[simp] theorem State.setReg_mem (s : State) (v : Byte) (r : Reg) : (s.setReg v r).mem = s.mem := by cases r <;> rfl
@[simp] theorem State.setReg_pend (s : State) (v : Byte) (r : Reg) : (s.setReg v r).pend = s.pend := by cases r <;> rfl
@[simp] theorem State.setReg_fault (s : State) (v : Byte) (r : Reg) : (s.setReg v r).fault = s.fault := by cases r <;> rfl
@[simp] theorem State.setReg_labels (s : State) (v : Byte) (r : Reg) : (s.setReg v r).labels = s.labels := by cases r <;> rfl

/-! ## Reading a register after an update -/

@[simp] theorem State.store_reg (s : State) (a : Nat) (v : Byte) (r : Reg) : (s.store a v).reg r = s.reg r := by
  cases r <;> rfl

@[simp] theorem State.setPc_reg (s : State) (p : Nat) (r : Reg) : (s.setPc p).reg r = s.reg r := by
  cases r <;> rfl

@[simp] theorem State.setFlags_reg (s : State) (f : Byte) (r : Reg) : (s.setFlags f).reg r = s.reg r := by
  cases r <;> rfl

@[simp] theorem State.raise_reg (s : State) (c : FaultCause) (i : FaultInfo) (r : Reg) :
    (s.raise c i).reg r = s.reg r := by
  cases r <;> rfl

@[simp] theorem State.setReg_reg (s : State) (v : Byte) (r r' : Reg) :
    (s.setReg v r).reg r' = if r = r' then v else s.reg r' := by
  cases r <;> cases r' <;> rfl

/-! ## Status -/

theorem State.status_faulted_iff (s : State) : s.status = .faulted ↔ ∃ r, s.fault = some r := by
  unfold State.status
  split
  · simpa [Option.isSome_iff_exists] using ‹s.fault.isSome = true›
  · split <;> simp_all

theorem State.status_halted_iff (s : State) : s.status = .halted ↔ s.fault = none ∧ s.pend.val ≤ s.pc := by
  unfold State.status
  split
  · rename_i h
    cases hf : s.fault <;> simp_all
  · split <;> simp_all

theorem State.status_running_iff (s : State) : s.status = .running ↔ s.fault = none ∧ s.pc < s.pend.val := by
  unfold State.status
  split
  · rename_i h
    cases hf : s.fault <;> simp_all
  · split <;> simp_all

@[simp] theorem State.raise_status (s : State) (c : FaultCause) (i : FaultInfo) : (s.raise c i).status = .faulted := rfl

end Sys2Proof.Machine
end

