-- ==== Sys2Proof/Laws/Operands.lean ====
section
/-! SUPPORT. What the addressing unit and the two shared endings of a meaning can do, said once: `writeLocation`, `commit`,
`branch`, and `exec` as one of them (R143-R145, R148, R230). -/

namespace Sys2Proof.Machine

/-! ## Writing a location -/

/-- A write to a location that answers leaves the byte there (in a memory in canonical form). -/
theorem readLocation_writeLocation {s u : State} {v : Byte} {loc : Location} (hs : s.mem.wf)
    (h : writeLocation s v loc = some u) : readLocation u loc = v := by
  cases loc with
  | reg r => cases h; simp [readLocation]
  | mem a => cases h; simp [readLocation, Memory.read_write hs]
  | literal k => cases h

/-- A write to a location changes that location only. -/
theorem writeLocation_frame {s u : State} {v : Byte} {loc : Location} (hs : s.mem.wf)
    (h : writeLocation s v loc = some u) : Frame s u (some loc) ∧ u.flags = s.flags ∧ u.pc = s.pc := by
  cases loc with
  | reg r => cases h; exact ⟨⟨fun r' hr => by simp_all, by simp, by simp, by simp, by simp⟩, by simp, by simp⟩
  | mem a =>
    cases h
    refine ⟨⟨by simp, fun b hb => ?_, by simp, by simp, by simp⟩, by simp, by simp⟩
    have : b ≠ a := fun e => hb (by rw [e])
    simp [Memory.read_write hs, this]
  | literal k => cases h

/-- The locations an operand can name lie in the address space. -/
theorem locate_mem_lt {s : State} {o : Operand} {a : Nat} (h : locate s o = .mem a) : a < memorySize := by
  cases o <;> simp only [locate, Location.mem.injEq, reduceCtorEq] at h <;> subst h <;> exact BitVec.isLt _

/-- A write to an operand keeps the memory's canonical form. -/
theorem writeOperand_wf {s u : State} {v : Byte} {o : Operand} (hs : s.mem.wf) (h : writeOperand s v o = some u) :
    u.mem.wf := by
  unfold writeOperand at h
  cases hl : locate s o with
  | reg r => rw [hl] at h; cases h; simpa using hs
  | mem a => rw [hl] at h; cases h; exact Memory.write_wf hs (locate_mem_lt hl)
  | literal k => rw [hl] at h; cases h

/-- The write to an operand fails exactly for a constant (R145). -/
theorem writeOperand_none_iff {s : State} {v : Byte} {o : Operand} : writeOperand s v o = none ↔ o.kind = .imm := by
  cases o <;> simp [writeOperand, locate, writeLocation, Operand.kind]

/-! ## Committing an ALU result -/

/-- What `commit` does to a destination that may be written: the result lands there, FLAGS and pc are set, and nothing
else changes. -/
theorem commit_writes {size : Nat} {d : Operand} {out : AluOut} {s : State} (hd : d.kind ≠ .imm) (hw : out.wen = true)
    (hs : s.mem.wf) : ∃ t, commit size d out s = .next t ∧ readLocation t (locate s d) = out.result ∧
      t.flags = out.flags ∧ t.pc = s.pc + size ∧ Frame s t (some (locate s d)) := by
  cases hu : writeOperand s out.result d with
  | none => exact absurd (writeOperand_none_iff.1 hu) hd
  | some u =>
    refine ⟨_, by simp only [commit, hw, hu, if_true]; rfl, ?_, by simp, by simp, ?_⟩
    · rw [← readLocation_writeLocation hs hu]
      cases locate s d <;> simp [readLocation]
    · obtain ⟨hr, hm, hp, hf, hl⟩ := (writeLocation_frame hs hu).1
      exact ⟨by simpa using hr, by simpa using hm, by simpa using hp, by simpa using hf, by simpa using hl⟩

/-- What `commit` does where the ALU writes no destination: FLAGS and pc are set, and nothing else changes. -/
theorem commit_flags_only {size : Nat} {d : Operand} {out : AluOut} {s : State} (hw : out.wen = false) :
    commit size d out s = .next ((s.setFlags out.flags).setPc (s.pc + size)) := by
  simp [commit, hw]

/-- What `commit` does with a constant as destination (R145, R262). -/
theorem commit_constant {size : Nat} {k : Byte} {out : AluOut} {s : State} (hw : out.wen = true) :
    commit size (.imm k) out s = .next (s.raise .constantWrite (.firstByte (s.mem.read s.pc))) := by
  simp [commit, hw, writeOperand, locate, writeLocation]

/-- All that `commit` can do. -/
theorem commit_cases {size : Nat} {d : Operand} {out : AluOut} {s t : State} (h : commit size d out s = .next t) :
    (∃ u, writeOperand s out.result d = some u ∧ t = (u.setFlags out.flags).setPc (s.pc + size)) ∨
    (out.wen = true ∧ d.kind = .imm ∧ t = s.raise .constantWrite (.firstByte (s.mem.read s.pc))) ∨
    (out.wen = false ∧ t = (s.setFlags out.flags).setPc (s.pc + size)) := by
  unfold commit at h
  split at h
  · rename_i hw
    cases hu : writeOperand s out.result d with
    | some u =>
      rw [hu] at h
      cases h
      exact .inl ⟨u, rfl, rfl⟩
    | none =>
      rw [hu] at h
      cases h
      exact .inr (.inl ⟨hw, writeOperand_none_iff.1 hu, rfl⟩)
  · rename_i hw
    cases h
    exact .inr (.inr ⟨by simpa using hw, rfl⟩)

/-- `commit` always answers a next state. -/
theorem commit_next (size : Nat) (d : Operand) (out : AluOut) (s : State) : ∃ t, commit size d out s = .next t := by
  unfold commit
  split
  · split <;> exact ⟨_, rfl⟩
  · exact ⟨_, rfl⟩

/-! ## Executing an instruction -/

/-- Every instruction is an ALU result committed to its destination, keeping bits 2..0 of FLAGS, or a write of pc: to a
byte, or past one or two bytes. -/
theorem exec_cases (i : Instr) (s : State) :
    (∃ size d out, i.dst = some d ∧ size = 1 + operandBytes d + ((i.src).map operandBytes).getD 0 ∧
      exec i s = commit size d out s ∧ flagReserved out.flags = flagReserved s.flags) ∨
    (i.dst = none ∧ (∃ b : Byte, exec i s = .next (s.setPc b.toNat)) ∨
      i.dst = none ∧ exec i s = .next (s.setPc (s.pc + 2)) ∨ i = .nop ∧ exec i s = .next (s.setPc (s.pc + 1))) := by
  have jump (c : JumpOp) (t : Byte) : (∃ b : Byte, branch c t s = .next (s.setPc b.toNat)) ∨
      branch c t s = .next (s.setPc (s.pc + 2)) := by
    unfold branch
    split
    · exact .inl ⟨t, rfl⟩
    · exact .inr rfl
  cases i
  case jmp t => exact .inr ((jump .jmp t).imp (⟨rfl, ·⟩) (.inl ⟨rfl, ·⟩))
  case jz t => exact .inr ((jump .jz t).imp (⟨rfl, ·⟩) (.inl ⟨rfl, ·⟩))
  case js t => exact .inr ((jump .js t).imp (⟨rfl, ·⟩) (.inl ⟨rfl, ·⟩))
  case jc t => exact .inr ((jump .jc t).imp (⟨rfl, ·⟩) (.inl ⟨rfl, ·⟩))
  case jo t => exact .inr ((jump .jo t).imp (⟨rfl, ·⟩) (.inl ⟨rfl, ·⟩))
  case jp t => exact .inr ((jump .jp t).imp (⟨rfl, ·⟩) (.inl ⟨rfl, ·⟩))
  case nop => exact .inr (.inr (.inr ⟨rfl, rfl⟩))
  case add d o => exact .inl ⟨binarySize d o, d, aluAdd (readOperand s d) (readOperand s o) s.flags, rfl, rfl, rfl, by simp [aluAdd]⟩
  case sub d o => exact .inl ⟨binarySize d o, d, aluSub true (readOperand s d) (readOperand s o) s.flags, rfl, rfl, rfl, by simp [aluSub]⟩
  case cmp d o => exact .inl ⟨binarySize d o, d, aluSub false (readOperand s d) (readOperand s o) s.flags, rfl, rfl, rfl, by simp [aluSub]⟩
  case and d o => exact .inl ⟨binarySize d o, d, aluAnd (readOperand s d) (readOperand s o) s.flags, rfl, rfl, rfl, by simp [aluAnd]⟩
  case or d o => exact .inl ⟨binarySize d o, d, aluOr (readOperand s d) (readOperand s o) s.flags, rfl, rfl, rfl, by simp [aluOr]⟩
  case mov d o => exact .inl ⟨binarySize d o, d, aluPass (readOperand s o) s.flags, rfl, rfl, rfl, by simp [aluPass]⟩
  case inc d => exact .inl ⟨unarySize d, d, aluInc (readOperand s d) s.flags, rfl, rfl, rfl, by simp [aluInc]⟩
  case dec d => exact .inl ⟨unarySize d, d, aluDec (readOperand s d) s.flags, rfl, rfl, rfl, by simp [aluDec]⟩
  case not d => exact .inl ⟨unarySize d, d, aluNot (readOperand s d) s.flags, rfl, rfl, rfl, by simp [aluNot]⟩
  case shr d => exact .inl ⟨unarySize d, d, aluShr (readOperand s d) s.flags, rfl, rfl, rfl, by simp [aluShr]⟩
  case shl d => exact .inl ⟨unarySize d, d, aluShl (readOperand s d) s.flags, rfl, rfl, rfl, by simp [aluShl]⟩

/-- A meaning faults only by a write to a constant, and then from the state it started in (R145, R262). -/
theorem exec_fault {i : Instr} {s t : State} {r : FaultRecord} (hs : s.fault = none) (h : exec i s = .next t)
    (hr : t.fault = some r) :
    i.dst.map Operand.kind = some .imm ∧ t = s.raise .constantWrite (.firstByte (s.mem.read s.pc)) := by
  rcases exec_cases i s with ⟨size, d, out, hd, -, h', -⟩ | ⟨-, b, h'⟩ | ⟨-, h'⟩ | ⟨-, h'⟩
  · rw [h'] at h
    rcases commit_cases h with ⟨u, hu, rfl⟩ | ⟨-, hk, rfl⟩ | ⟨-, rfl⟩
    · have hu' : u.fault = s.fault := by
        unfold writeOperand at hu
        cases hl : locate s d <;> rw [hl] at hu <;> cases hu <;> simp
      simp [hu', hs] at hr
    · simp [hd, hk]
    · simp [hs] at hr
  all_goals
    rw [h'] at h
    cases h
    simp [hs] at hr

/-- The hook's ZF, SF, PF and reserved bits are those of its result (R150, R151). -/
theorem resultFlags_hook (f r : Byte) (carry overflow logical : Bool) : ResultFlags f (hook f r carry overflow logical) r := by
  refine ⟨?_, ?_, ?_, ?_⟩
  · rw [flagZF_hook, Bool.eq_iff_iff]
    simp [BitVec.toNat_eq]
  · rw [flagSF_hook, getLsbD_seven]
  · rw [flagPF_hook, parity]
    rfl
  · simp

/-- The number of extra bytes of an operand, counted and listed (R82, R83). -/
theorem operandBytes_eq_length (o : Operand) : operandBytes o = o.extraBytes.length := by
  cases o <;> rfl

/-- Every instruction answers a next state. -/
theorem exec_next (i : Instr) (s : State) : ∃ t, exec i s = .next t := by
  rcases exec_cases i s with ⟨size, d, out, -, -, h, -⟩ | ⟨-, b, h⟩ | ⟨-, h⟩ | ⟨-, h⟩
  · rw [h]
    exact commit_next size d out s
  · exact ⟨_, h⟩
  · exact ⟨_, h⟩
  · exact ⟨_, h⟩

end Sys2Proof.Machine
end

