-- ==== Sys2Proof/Laws/Step.lean ====
section
/-! SUPPORT. What fetching and stepping can do, said once (R141, R142, R154), and what placing an instruction does to the
bytes that a fetch reads. -/

namespace Sys2Proof.Machine

/-! ## The checked read (R141) -/

theorem fetchByte_of_lt {s : State} {a : Nat} (h : a < s.pend.val) : fetchByte s a = .ok (s.mem.read a) := by
  simp [fetchByte, Nat.not_le.2 h]

theorem fetchByte_of_ge {s : State} {a : Nat} (h : s.pend.val ≤ a) :
    fetchByte s a = .error { cause := .fetchPastEnd, info := .address a } := by
  simp [fetchByte, h]

/-! ## Fetching an instruction (R142, R263) -/

theorem fetchInstr_past_end {T : IsaTables} {s : State} (h : s.pend.val ≤ s.pc) :
    fetchInstr T s = .error { cause := .fetchPastEnd, info := .address s.pc } := by
  simp [fetchInstr, fetchByte_of_ge h]

theorem fetchInstr_illegal {T : IsaTables} {s : State} {c : IllegalCause} (h : s.pc < s.pend.val)
    (hd : decodeFirst T (s.mem.read s.pc) = .error c) :
    fetchInstr T s = .error (illegalFault (s.mem.read s.pc) c) := by
  simp [fetchInstr, fetchByte_of_lt h, hd]

theorem fetchInstr_short {T : IsaTables} {s : State} {f : Form} (h : s.pc < s.pend.val)
    (hd : decodeFirst T (s.mem.read s.pc) = .ok f) (hf : f.hasSecondByte = false) :
    fetchInstr T s = .ok (f.toInstr 0) := by
  simp [fetchInstr, fetchByte_of_lt h, hd, hf]

theorem fetchInstr_long {T : IsaTables} {s : State} {f : Form} (h : s.pc + 1 < s.pend.val)
    (hd : decodeFirst T (s.mem.read s.pc) = .ok f) (hf : f.hasSecondByte = true) :
    fetchInstr T s = .ok (f.toInstr (s.mem.read (s.pc + 1))) := by
  simp [fetchInstr, fetchByte_of_lt (Nat.lt_of_succ_lt h), fetchByte_of_lt h, hd, hf]

theorem fetchInstr_cut {T : IsaTables} {s : State} {f : Form} (h : s.pc < s.pend.val) (h' : s.pend.val ≤ s.pc + 1)
    (hd : decodeFirst T (s.mem.read s.pc) = .ok f) (hf : f.hasSecondByte = true) :
    fetchInstr T s = .error { cause := .fetchPastEnd, info := .address (s.pc + 1) } := by
  simp [fetchInstr, fetchByte_of_lt h, fetchByte_of_ge h', hd, hf]

/-- All that fetching an instruction can do. -/
theorem fetchInstr_cases (T : IsaTables) (s : State) :
    (s.pend.val ≤ s.pc ∧ fetchInstr T s = .error { cause := .fetchPastEnd, info := .address s.pc }) ∨
    (s.pc < s.pend.val ∧ ∃ c, decodeFirst T (s.mem.read s.pc) = .error c ∧
      fetchInstr T s = .error (illegalFault (s.mem.read s.pc) c)) ∨
    (s.pc < s.pend.val ∧ s.pend.val ≤ s.pc + 1 ∧ ∃ f, decodeFirst T (s.mem.read s.pc) = .ok f ∧ f.hasSecondByte = true ∧
      fetchInstr T s = .error { cause := .fetchPastEnd, info := .address (s.pc + 1) }) ∨
    (s.pc < s.pend.val ∧ ∃ f, decodeFirst T (s.mem.read s.pc) = .ok f ∧ f.hasSecondByte = false ∧
      fetchInstr T s = .ok (f.toInstr 0)) ∨
    (s.pc + 1 < s.pend.val ∧ ∃ f, decodeFirst T (s.mem.read s.pc) = .ok f ∧ f.hasSecondByte = true ∧
      fetchInstr T s = .ok (f.toInstr (s.mem.read (s.pc + 1)))) := by
  by_cases h : s.pend.val ≤ s.pc
  · exact .inl ⟨h, fetchInstr_past_end h⟩
  have h := Nat.not_le.1 h
  refine .inr ?_
  cases hd : decodeFirst T (s.mem.read s.pc) with
  | error c => exact .inl ⟨h, c, rfl, fetchInstr_illegal h hd⟩
  | ok f =>
    refine .inr ?_
    cases hf : f.hasSecondByte with
    | false => exact .inr (.inl ⟨h, f, rfl, hf, fetchInstr_short h hd hf⟩)
    | true =>
      by_cases h' : s.pend.val ≤ s.pc + 1
      · exact .inl ⟨h, h', f, rfl, hf, fetchInstr_cut h h' hd hf⟩
      · exact .inr (.inr ⟨Nat.not_le.1 h', f, rfl, hf, fetchInstr_long (Nat.not_le.1 h') hd hf⟩)

/-! ## The step (R140) -/

theorem stepWith_faulted {T : IsaTables} {s : State} {r : FaultRecord} (h : s.fault = some r) :
    stepWith T s = .fault (.alreadyFaulted r) := by
  simp [stepWith, h]

theorem stepWith_error {T : IsaTables} {s : State} {e : FetchFault} (h : s.fault = none)
    (hf : fetchInstr T s = .error e) : stepWith T s = .next (s.raise e.cause e.info) := by
  simp [stepWith, h, hf]

theorem stepWith_ok {T : IsaTables} {s : State} {i : Instr} (h : s.fault = none) (hf : fetchInstr T s = .ok i) :
    stepWith T s = exec i s := by
  simp [stepWith, h, hf]

/-- All that a step which answers a next state can have done. -/
theorem stepWith_next_cases {T : IsaTables} {s t : State} (h : stepWith T s = .next t) :
    s.fault = none ∧ ((∃ e, fetchInstr T s = .error e ∧ t = s.raise e.cause e.info) ∨
      ∃ i, fetchInstr T s = .ok i ∧ exec i s = .next t) := by
  cases hf : s.fault with
  | some r => rw [stepWith_faulted hf] at h; cases h
  | none =>
    refine ⟨rfl, ?_⟩
    cases hi : fetchInstr T s with
    | error e =>
      rw [stepWith_error hf hi] at h
      cases h
      exact .inl ⟨e, rfl, rfl⟩
    | ok i =>
      rw [stepWith_ok hf hi] at h
      exact .inr ⟨i, rfl, h⟩

/-! ## Placing an instruction -/

theorem placeByte_wf {s : State} {a : Nat} {b : Byte} (hs : s.mem.wf) : (placeByte s a b).mem.wf := by
  unfold placeByte
  split
  · exact Memory.write_wf hs ‹_›
  · exact hs

/-- A byte placed in the address space is there, below PEND. -/
theorem placeByte_reads {s : State} {a : Nat} {b : Byte} (hs : s.mem.wf) (ha : a < memorySize) :
    (placeByte s a b).mem.read a = b ∧ a < (placeByte s a b).pend.val := by
  refine ⟨by simp [placeByte, ha, Memory.read_write hs], ?_⟩
  simp only [placeByte, ha, if_true, coverAddress]
  split
  · simp
  · simp only [memorySize] at *
    omega

theorem placeBytes_wf {bytes : List Byte} {a : Nat} {s : State} (hs : s.mem.wf) : (placeBytes bytes a s).mem.wf := by
  induction bytes generalizing a s with
  | nil => exact hs
  | cons b bytes ih => exact ih (placeByte_wf hs)

end Sys2Proof.Machine
end

