-- ==== Sys2Proof/Laws/Run.lean ====
section
/-! SUPPORT. What a bounded run can do (R152): a core that is not Running stays as it is, and runs compose. -/

namespace Sys2Proof.Machine

theorem runStepWith_of_not_running {T : IsaTables} {s : State} (h : s.status ≠ .running) : runStepWith T s = s := by
  simp [runStepWith, h]

theorem runForWith_of_not_running {T : IsaTables} {s : State} (h : s.status ≠ .running) (n : Nat) :
    runForWith T n s = s := by
  induction n with
  | zero => rfl
  | succ n ih => rw [runForWith, runStepWith_of_not_running h, ih]

theorem runForWith_add (T : IsaTables) (m n : Nat) (s : State) :
    runForWith T (m + n) s = runForWith T n (runForWith T m s) := by
  induction m generalizing s with
  | zero => simp [runForWith]
  | succ m ih =>
    rw [Nat.succ_add]
    exact ih _

/-- A Running core's round of `run` is its step. -/
theorem runStepWith_of_next {T : IsaTables} {s t : State} (h : s.status = .running) (hs : stepWith T s = .next t) :
    runStepWith T s = t := by
  simp [runStepWith, h, hs]

end Sys2Proof.Machine
end

