-- ==== Sys2Proof/Tests/Slice0.lean ====
section
/-! SUPPORT. The model's own tests: ill-formed terms that the checks refuse, words written out from the encoding tables, one
step of each instruction on the vectors of spec/95_test_vectors.md, and for every statement with hypotheses a witness
that meets them. Expected values are the spec's, never the model's answer. -/

namespace Sys2Proof.Tests
open Sys2Proof.Machine

/-! ## Well-formedness: what each check refuses (R92, R93) -/

/-- Pairs that R92 names as left out, and constant destinations, are refused for every binary instruction. -/
theorem test_wf_refuses_binary :
    (Instr.add (.reg .A) (.reg .A)).wf z70ref = false ∧ (Instr.sub (.reg .I) .indI).wf z70ref = false ∧
    (Instr.cmp (.imm 0x01) (.reg .A)).wf z70ref = false ∧ (Instr.and .indI (.reg .I)).wf z70ref = false ∧
    (Instr.or (.dir 0x10) (.reg .B)).wf z70ref = false ∧ (Instr.mov .indI (.imm 0x05)).wf z70ref = false ∧
    (Instr.mov (.dir 0x10) (.dir 0x20)).wf z70ref = false := by decide

/-- `inc 10H` and `inc [10H]` are assembly errors (R93), and so for every unary instruction. -/
theorem test_wf_refuses_unary :
    (Instr.inc (.imm 0x10)).wf z70ref = false ∧ (Instr.dec (.dir 0x10)).wf z70ref = false ∧
    (Instr.not (.imm 0x10)).wf z70ref = false ∧ (Instr.shr (.dir 0x10)).wf z70ref = false ∧
    (Instr.shl (.imm 0x10)).wf z70ref = false := by decide

/-- Tables whose nop byte is a jump byte break R7 item 7. -/
theorem test_valid_refuses_nop_in_jump_range : ¬ ({ z70ref with nopop := 0xF0 } : IsaTables).Valid :=
  fun h => h.nopop_not_jump .jmp rfl

/-- Tables with a constant destination break R7 item 4. -/
theorem test_valid_refuses_constant_destination :
    ¬ ({ z70ref with bmode := fun _ => some (.imm, .reg .A) } : IsaTables).Valid :=
  fun h => h.bmode_dst_not_imm 0 (.reg .A) rfl

/-! ## Decoding: words written out bit by bit -/

/-- Binary modes 0 to 7 of R92, on `add` (operation code 0001). -/
theorem test_decode_binary_modes_low :
    decode [0b00010000] = .ok (.add (.reg .A) (.reg .B), []) ∧ decode [0b00010001] = .ok (.add (.reg .A) (.reg .I), []) ∧
    decode [0b00010010] = .ok (.add (.reg .A) .indI, []) ∧ decode [0b00010011, 0x05] = .ok (.add (.reg .A) (.imm 0x05), []) ∧
    decode [0b00010100, 0x20] = .ok (.add (.reg .A) (.dir 0x20), []) ∧ decode [0b00010101] = .ok (.add (.reg .B) (.reg .A), []) ∧
    decode [0b00010110] = .ok (.add (.reg .B) (.reg .I), []) ∧
    decode [0b00010111] = .ok (.add (.reg .B) .indI, []) := by decide

/-- Binary modes 8 to F of R92, on `add`. -/
theorem test_decode_binary_modes_high :
    decode [0b00011000, 0xFE] = .ok (.add (.reg .B) (.imm 0xFE), []) ∧
    decode [0b00011001, 0x20] = .ok (.add (.reg .B) (.dir 0x20), []) ∧ decode [0b00011010] = .ok (.add (.reg .I) (.reg .A), []) ∧
    decode [0b00011011] = .ok (.add (.reg .I) (.reg .B), []) ∧ decode [0b00011100, 0x10] = .ok (.add (.reg .I) (.imm 0x10), []) ∧
    decode [0b00011101] = .ok (.add .indI (.reg .A), []) ∧ decode [0b00011110] = .ok (.add .indI (.reg .B), []) ∧
    decode [0b00011111, 0x20] = .ok (.add (.dir 0x20) (.reg .A), []) := by decide

/-- The other binary operation codes of R90, on examples of R172 to R176. -/
theorem test_decode_binary_codes :
    decode [0b00100011, 0x00] = .ok (.sub (.reg .A) (.imm 0x00), []) ∧ decode [0b00111101] = .ok (.cmp .indI (.reg .A), []) ∧
    decode [0b01000000] = .ok (.and (.reg .A) (.reg .B), []) ∧ decode [0b01010011, 0x01] = .ok (.or (.reg .A) (.imm 0x01), []) ∧
    decode [0b01100010] = .ok (.mov (.reg .A) .indI, []) := by decide

/-- The unary operation codes of R90 and the four modes of R93. -/
theorem test_decode_unary :
    decode [0b01110000] = .ok (.inc (.reg .A), []) ∧ decode [0b10000001] = .ok (.dec (.reg .B), []) ∧
    decode [0b10010010] = .ok (.not (.reg .I), []) ∧ decode [0b10100011] = .ok (.shr .indI, []) ∧
    decode [0b10110011] = .ok (.shl .indI, []) := by decide

/-- The jump bytes and the nop byte of R91; the bytes after an instruction are left over. -/
theorem test_decode_jumps_and_nop :
    decode [0b11110000, 0x04] = .ok (.jmp 0x04, []) ∧ decode [0b11110001, 0x08] = .ok (.jz 0x08, []) ∧
    decode [0b11110010, 0x20] = .ok (.js 0x20, []) ∧ decode [0b11110011, 0x0B] = .ok (.jc 0x0B, []) ∧
    decode [0b11110100, 0x0A] = .ok (.jo 0x0A, []) ∧ decode [0b11110101, 0x40] = .ok (.jp 0x40, []) ∧
    decode [0b11111111, 0x70] = .ok (.nop, [0x70]) := by decide

/-- V-decode: illegal bytes are rejected by cause, and cut instructions are truncated. -/
theorem test_decode_rejects :
    decode [0x00] = .error (.illegal .illegalOpcode 0x00) ∧ decode [0x74] = .error (.illegal .illegalMode 0x74) ∧
    decode [0xB4, 0x01] = .error (.illegal .illegalMode 0xB4) ∧ decode [0xC0] = .error (.illegal .illegalOpcode 0xC0) ∧
    decode [0xF6] = .error (.illegal .illegalOpcode 0xF6) ∧ decode [0xFE] = .error (.illegal .illegalOpcode 0xFE) ∧
    decode [] = .error .truncated ∧ decode [0x13] = .error .truncated ∧ decode [0xF0] = .error .truncated := by decide

/-- Encodings written in R171 to R176 and R232. -/
theorem test_encode :
    encode (.add .indI (.reg .A)) = some [0x1D] ∧ encode (.mov (.reg .I) (.imm 0x10)) = some [0x6C, 0x10] ∧
    encode (.mov (.dir 0x20) (.reg .A)) = some [0x6F, 0x20] ∧ encode (.jmp 0x04) = some [0xF0, 0x04] ∧
    encode (.mov .indI (.imm 0x05)) = none := by decide

/-- Opcode-table words: the second byte is bits 15..8, and 0 where the table gives the row one byte. -/
theorem test_decodeTableWord :
    decodeTableWord 8 0x13 = some (.add (.reg .A) (.imm 0x00)) ∧ decodeTableWord 16 0x20F1 = some (.jz 0x20) ∧
    decodeTableWord 8 0x20F1 = some (.jz 0x00) ∧ decodeTableWord 8 0x00 = none := by decide

/-! ## One step of each instruction (V-tables; flags are OF CF ZF PF SF in bits 7..3) -/

/-- One step from reset with the opcode-table word `w` placed, A, B, I and FLAGS as given: A, I, FLAGS, pc and the byte at
address 0x20 after it; none where the step faults or answers no next state. -/
def after (w : Nat) (a b i f : Byte) : Option (Byte × Byte × Byte × Nat × Byte) :=
  match step (State.withFetchWord
      { State.reset with regA := a, regB := b, regI := i, flags := f, mem := [(0x20, 0x7F)] } 16 w) with
  | .next t => if t.fault = none then some (t.regA, t.regI, t.flags, t.pc, t.mem.read 0x20) else none
  | .fault _ => none
  | .refused _ => none

/-- V-add: 0x80 + 0xFF overflows and carries; and `add [I],A` with I = 0x20. -/
theorem test_step_add :
    after 0x10 0x80 0xFF 0x00 0x00 = some (0x7F, 0x00, 0xC0, 1, 0x7F) ∧
    after 0x1D 0x01 0x00 0x20 0x00 = some (0x01, 0x20, 0x88, 1, 0x80) := by decide

/-- V-sub: 0x7F - 0xFF, and 0x01 - 0x80. -/
theorem test_step_sub :
    after 0x20 0x7F 0xFF 0x00 0x00 = some (0x80, 0x00, 0xC8, 1, 0x7F) ∧
    after 0x20 0x01 0x80 0x00 0x00 = some (0x81, 0x00, 0xD8, 1, 0x7F) := by decide

/-- V-cmp: the flags of `sub`, A kept; and a memory destination is not written. -/
theorem test_step_cmp :
    after 0x30 0x03 0x05 0x00 0x00 = some (0x03, 0x00, 0x48, 1, 0x7F) ∧
    after 0x3D 0x7F 0x00 0x20 0x00 = some (0x7F, 0x20, 0x30, 1, 0x7F) := by decide

/-- V-and: old OF and CF are cleared. -/
theorem test_step_and :
    after 0x40 0xF0 0x3C 0x00 0xC0 = some (0x30, 0x00, 0x10, 1, 0x7F) := by decide

/-- V-or: old OF and CF are cleared. -/
theorem test_step_or :
    after 0x50 0x80 0x01 0x00 0xC0 = some (0x81, 0x00, 0x18, 1, 0x7F) := by decide

/-- V-mov and V-operand: no flag is written; `mov [20H],A` stores, its extra byte passed. -/
theorem test_step_mov :
    after 0x60 0xFF 0x80 0x00 0xC0 = some (0x80, 0x00, 0xC0, 1, 0x7F) ∧
    after 0x206F 0x5A 0x00 0x00 0xC0 = some (0x5A, 0x00, 0xC0, 2, 0x5A) := by decide

/-- V-inc: CF is kept; and `inc [I]` on 0x7F overflows. -/
theorem test_step_inc :
    after 0x70 0xFF 0x00 0x00 0x40 = some (0x00, 0x00, 0x70, 1, 0x7F) ∧
    after 0x73 0x00 0x00 0x20 0x00 = some (0x00, 0x20, 0x88, 1, 0x80) := by decide

/-- V-dec: 0x80 overflows, and 0x00 wraps with CF kept. -/
theorem test_step_dec :
    after 0x80 0x80 0x00 0x00 0x00 = some (0x7F, 0x00, 0x80, 1, 0x7F) ∧
    after 0x80 0x00 0x00 0x00 0x40 = some (0xFF, 0x00, 0x58, 1, 0x7F) := by decide

/-- V-not: no flag changes. -/
theorem test_step_not :
    after 0x90 0x00 0x00 0x00 0x40 = some (0xFF, 0x00, 0x40, 1, 0x7F) := by decide

/-- V-shr: CF is the old bit 0 and OF the old bit 7. -/
theorem test_step_shr :
    after 0xA0 0x81 0x00 0x00 0x00 = some (0x40, 0x00, 0xC0, 1, 0x7F) ∧
    after 0xA0 0x00 0x00 0x00 0x40 = some (0x00, 0x00, 0x30, 1, 0x7F) := by decide

/-- V-shl: the row that tells the two readings of C1 apart, and 0xC0. -/
theorem test_step_shl :
    after 0xB0 0x40 0x00 0x00 0x40 = some (0x80, 0x00, 0x88, 1, 0x7F) ∧
    after 0xB0 0xC0 0x00 0x00 0x00 = some (0x80, 0x00, 0x48, 1, 0x7F) := by decide

/-- V-jump: taken whatever the flags. -/
theorem test_step_jmp :
    after 0x40F0 0x00 0x00 0x00 0x00 = some (0x00, 0x00, 0x00, 64, 0x7F) := by decide

/-- V-jump: taken by ZF alone. -/
theorem test_step_jz :
    after 0x40F1 0x00 0x00 0x00 0x20 = some (0x00, 0x00, 0x20, 64, 0x7F) ∧
    after 0x40F1 0x00 0x00 0x00 0xD8 = some (0x00, 0x00, 0xD8, 2, 0x7F) := by decide

/-- V-jump: taken by SF alone. -/
theorem test_step_js :
    after 0x40F2 0x00 0x00 0x00 0x08 = some (0x00, 0x00, 0x08, 64, 0x7F) ∧
    after 0x40F2 0x00 0x00 0x00 0xF0 = some (0x00, 0x00, 0xF0, 2, 0x7F) := by decide

/-- V-jump: taken by CF alone. -/
theorem test_step_jc :
    after 0x40F3 0x00 0x00 0x00 0x40 = some (0x00, 0x00, 0x40, 64, 0x7F) ∧
    after 0x40F3 0x00 0x00 0x00 0xB8 = some (0x00, 0x00, 0xB8, 2, 0x7F) := by decide

/-- V-jump: taken by OF alone. -/
theorem test_step_jo :
    after 0x40F4 0x00 0x00 0x00 0x80 = some (0x00, 0x00, 0x80, 64, 0x7F) ∧
    after 0x40F4 0x00 0x00 0x00 0x78 = some (0x00, 0x00, 0x78, 2, 0x7F) := by decide

/-- V-jump: taken by PF alone. -/
theorem test_step_jp :
    after 0x40F5 0x00 0x00 0x00 0x10 = some (0x00, 0x00, 0x10, 64, 0x7F) ∧
    after 0x40F5 0x00 0x00 0x00 0xE8 = some (0x00, 0x00, 0xE8, 2, 0x7F) := by decide

/-- V-nop: only pc changes. -/
theorem test_step_nop :
    after 0xFF 0x00 0x00 0x00 0xF8 = some (0x00, 0x00, 0xF8, 1, 0x7F) := by decide

/-! ## Faults (V-fault) -/

/-- A core with the bytes of an image, pc and PEND given, and the other fields as after reset. -/
def coreAt (bytes : List Byte) (pc : Nat) (pend : Fin 257) : State :=
  { State.reset with mem := Memory.ofImage bytes, pc := pc, pend := pend }

/-- The fault record and pc after one step. -/
def recordAfter (s : State) : Option (Option FaultRecord × Nat) :=
  match step s with
  | .next t => some (t.fault, t.pc)
  | .fault _ => none
  | .refused _ => none

/-- V-fault: a step of a Halted core, and an extra byte and a target byte at PEND. -/
theorem test_fault_fetchPastEnd :
    recordAfter (coreAt [] 5 5) = some (some ⟨.fetchPastEnd, 5, .address 5⟩, 5) ∧
    recordAfter (coreAt [0, 0, 0, 0, 0x13] 4 5) = some (some ⟨.fetchPastEnd, 4, .address 5⟩, 4) ∧
    recordAfter (coreAt [0, 0, 0, 0, 0xF0] 4 5) = some (some ⟨.fetchPastEnd, 4, .address 5⟩, 4) := by decide

/-- V-fault: illegal first bytes at PEND - 1 report their decode cause (R263). -/
theorem test_fault_illegal :
    recordAfter (coreAt [0x00] 0 1) = some (some ⟨.illegalOpcode, 0, .firstByte 0x00⟩, 0) ∧
    recordAfter (coreAt [0x7F] 0 1) = some (some ⟨.illegalMode, 0, .firstByte 0x7F⟩, 0) ∧
    recordAfter (coreAt [0xF6] 0 1) = some (some ⟨.illegalOpcode, 0, .firstByte 0xF6⟩, 0) := by decide

/-- R154: a step of a Faulted core answers no state. -/
theorem test_fault_sticky : recordAfter ((coreAt [0xFF] 0 1).raise .illegalMode (.firstByte 0x74)) = none := by decide

/-- R261: the cause codes. -/
theorem test_fault_codes : [FaultCause.fetchPastEnd, .illegalOpcode, .illegalMode, .constantWrite].map FaultCause.code =
    [1, 2, 3, 4] := by decide

/-- R24: after the byte at 0xFF is fetched pc is 256, not 0. -/
theorem test_pc_reaches_256 :
    (match step { State.reset with mem := [(0xFF, 0xFF)], pc := 0xFF, pend := 256 } with
      | .next t => (t.pc, t.status)
      | _ => (0, .running)) = (256, .halted) := by decide

/-! ## The assembler and the launch (V-asm, W8, W12, W13) -/

/-- Lines of text for the assembler. -/
def source (lines : List String) : List Text := lines.map String.toList

/-- The code an assembly emits, up to `code_end`. -/
def codeOf (lines : List String) : Option (List Byte) :=
  match assemble (source lines) with
  | .ok a => some (a.image.take a.codeEnd)
  | .error _ => none

/-- W8: a label, a jump to it, and the bytes of the listing. -/
theorem test_assemble_w8 :
    codeOf ["mov A,00H", "sub A,00H", "jz SKIP", "mov B,FFH", "SKIP: nop"] =
      some [0x63, 0x00, 0x23, 0x00, 0xF1, 0x08, 0x68, 0xFF, 0xFF] := by decide

/-- V-asm: operand tokens (R111, R112, R128). -/
theorem test_assemble_tokens :
    ["a", "[I]", "[A]", "[10h]", "ffh", "-1", "100H", "-80H"].map (fun t => (parseOperand t.toList).toOption) =
      [some (.imm 0x0A), some .indI, some (.dir 0x0A), some (.dir 0x10), some (.imm 0xFF), some (.imm 0xFF),
        some (.imm 0x00), some (.imm 0x80)] ∧
    ["i", "H", "-", "", "[ I ]"].map (fun t => (parseOperand t.toList).toOption) = [none, none, none, none, none] := by
  decide

/-- V-asm, W5, W13: comments and case; and the errors that abort an assembly. -/
theorem test_assemble_lines_and_errors :
    codeOf ["MOV A,05H // load", "", "  // only a comment"] = some [0x63, 0x05] ∧ codeOf ["mov A,-1"] = some [0x63, 0xFF] ∧
    codeOf ["X: nop", "X: nop"] = none ∧ codeOf ["jmp NOWHERE"] = none ∧ codeOf ["mov [10H],[20H]"] = none ∧
    codeOf ["nop A"] = none ∧ codeOf ["add A"] = none ∧ codeOf ["inc [10H]"] = none ∧ codeOf [":nop"] = none := by
  decide

/-! ## Witnesses: each statement's hypotheses are met, every clause at a boundary of its range -/

/-- Tables with a constant destination in every row: not of R7, but tables. -/
def constantTables : IsaTables :=
  { z70ref with bmode := fun _ => some (.imm, .reg .A), umode := fun _ => some .imm }

theorem witness_DecodeOfEncodeIsTheInstruction :
    z70ref.Valid ∧ (Instr.mov (.dir 0x20) (.reg .A)).wf z70ref = true := ⟨z70ref_valid, by decide⟩

theorem witness_EncodeOfDecodeIsTheBytes :
    z70ref.Valid ∧ decodeWith z70ref [0x13, 0x05, 0xFF] = .ok (.add (.reg .A) (.imm 0x05), [0xFF]) :=
  ⟨z70ref_valid, by decide⟩

/-- Each clause at the ends of its range of bytes. -/
theorem witness_FirstByteMapOfZ70Ref :
    ((0x0F : Byte).toNat / 16 = 0 ∧ (0xC0 : Byte).toNat / 16 = 0xC ∧ (0xEF : Byte).toNat / 16 = 0xE ∧
      0xF6 ≤ (0xF6 : Byte).toNat ∧ (0xFE : Byte).toNat ≤ 0xFE) ∧
    (0x10 : Byte).toNat / 16 = 1 + 0 ∧ (0x6F : Byte).toNat / 16 = 1 + 5 ∧
    ((0x73 : Byte).toNat / 16 = 7 + 0 ∧ (0x73 : Byte).toNat % 16 < 4) ∧
    ((0xB4 : Byte).toNat / 16 = 7 + 4 ∧ 4 ≤ (0xB4 : Byte).toNat % 16) ∧
    (0xF0 : Byte).toNat = 0xF0 + 0 ∧ (0xF5 : Byte).toNat = 0xF0 + 5 ∧ (0xFF : Byte).toNat = 0xFF := by decide

theorem witness_LengthFollowsFromFirstByte :
    z70ref.Valid ∧ decodeFirst z70ref 0x00 = .error .illegalOpcode ∧
    (decodeFirst z70ref 0x13 = .ok (.binary .add (.reg .A) .imm) ∧
      ([] : List Byte).length + 1 < (Form.binary .add (.reg .A) .imm).length ∧
      (Form.binary .add (.reg .A) .imm).length ≤ [(0x05 : Byte)].length + 1) := ⟨z70ref_valid, by decide⟩

theorem witness_ModeSearchTakesTheFirstMatchingRow :
    (z70ref.umode 3 = some (Operand.indI).kind ∧ ∀ m' < (3 : Nibble), z70ref.umode m' ≠ some (Operand.indI).kind) ∧
    (∀ m, z70ref.umode m ≠ some (Operand.dir 0x10).kind) ∧
    (z70ref.bmode 0xF = some ((Operand.dir 0x20).kind, (Operand.reg .A).kind) ∧
      ∀ m' < (0xF : Nibble), z70ref.bmode m' ≠ some ((Operand.dir 0x20).kind, (Operand.reg .A).kind)) ∧
    (∀ m, z70ref.bmode m ≠ some ((Operand.dir 0x10).kind, (Operand.dir 0x20).kind)) := by decide

theorem witness_StepRunsTheDecodedInstruction :
    (coreAt [0xFF, 0x13, 0x05] 1 3).fault = none ∧ 1 + 2 ≤ (coreAt [0xFF, 0x13, 0x05] 1 3).pend.val ∧
    decode ((coreAt [0xFF, 0x13, 0x05] 1 3).mem.bytesAt 1 2) = .ok (.add (.reg .A) (.imm 0x05), []) := by decide

theorem witness_StepAnswersUnlessFaulted : (coreAt [0xFF] 0 1).status ≠ .faulted := by decide

theorem witness_FaultedStatusIsSticky :
    ((coreAt [0xFF] 0 1).raise .illegalMode (.firstByte 0x74)).fault = some ⟨.illegalMode, 0, .firstByte 0x74⟩ := by decide

theorem witness_HaltedStepRaisesFetchPastEnd : (coreAt [0xFF] 1 1).status = .halted := by decide

theorem witness_FaultDiscardsEveryWrite :
    stepWith z70ref (coreAt [0x00] 0 1) =
      .next { coreAt [0x00] 0 1 with fault := some ⟨.illegalOpcode, 0, .firstByte 0x00⟩ } := rfl

/-- Each clause at its boundary: PEND = pc, an illegal byte at PEND - 1, a second byte at PEND, a constant destination. -/
theorem witness_FirstApplicableFaultIsReported :
    (coreAt [0x13] 1 1).pend.val ≤ (coreAt [0x13] 1 1).pc ∧
    ((coreAt [0x00] 0 1).pc < (coreAt [0x00] 0 1).pend.val ∧ decodeFirst z70ref 0x00 = .error .illegalOpcode ∧
      decodeFirst z70ref 0x74 = .error .illegalMode) ∧
    (decodeFirst z70ref 0x13 = .ok (.binary .add (.reg .A) .imm) ∧ (Form.binary .add (.reg .A) .imm).length = 2 ∧
      (coreAt [0x13] 0 1).pend.val ≤ (coreAt [0x13] 0 1).pc + 1) ∧
    (decodeFirst constantTables 0x10 = .ok (.binary .add .imm (.reg .A)) ∧
      (coreAt [0x10, 0x05] 0 2).pc + (Form.binary .add .imm (.reg .A)).length ≤ (coreAt [0x10, 0x05] 0 2).pend.val) ∧
    decodeFirst constantTables 0x70 = .ok (.unary .inc .imm) := by decide

theorem witness_WholeInstructionBelowPendRaisesNoFault :
    z70ref.Valid ∧ (coreAt [0x13, 0x05] 0 2).fault = none ∧
    decodeFirst z70ref ((coreAt [0x13, 0x05] 0 2).mem.read 0) = .ok (.binary .add (.reg .A) .imm) ∧
    0 + (Form.binary .add (.reg .A) .imm).length ≤ (coreAt [0x13, 0x05] 0 2).pend.val := ⟨z70ref_valid, by decide⟩

/-- A step at the last byte of the memory, from a state that is not the reset state. -/
theorem witness_EveryStepKeepsTheInvariant :
    z70ref.Valid ∧ State.Inv z70ref { State.reset with mem := [(0xFF, 0xFF)], pc := 0xFF, pend := 256, flags := 0xF8 } ∧
    stepWith z70ref { State.reset with mem := [(0xFF, 0xFF)], pc := 0xFF, pend := 256, flags := 0xF8 } =
      .next { State.reset with mem := [(0xFF, 0xFF)], pc := 256, pend := 256, flags := 0xF8 } :=
  ⟨z70ref_valid, ⟨by decide, by decide, by decide, fun _ h => by cases h⟩, rfl⟩

theorem witness_StepKeepsPendAndLabels :
    stepWith z70ref (coreAt [0xFF] 0 1) = .next { coreAt [0xFF] 0 1 with pc := 1 } := rfl

theorem witness_NoInstructionReadsPend :
    exec (.mov (.reg .A) (.imm 0x05)) (coreAt [] 0 1) = .next { coreAt [] 0 1 with regA := 0x05, pc := 2 } := rfl

theorem witness_NoStepReadsTheLabels :
    stepWith z70ref (coreAt [0xF0, 0x00] 0 2) = .next (coreAt [0xF0, 0x00] 0 2) := rfl

theorem witness_NoInstructionReadsPcAsData :
    exec (.jmp 0x40) (coreAt [] 0 1) = .next { coreAt [] 0 1 with pc := 0x40 } := rfl

theorem witness_CanonicalMemoriesReadingAlikeAreEqual :
    Memory.wf [(0x20, 0x7F)] ∧ ∀ a, a < memorySize → Memory.read [(0x20, 0x7F)] a = Memory.read [(0x20, 0x7F)] a :=
  ⟨by decide, fun _ _ => rfl⟩

/-- Both clauses about PEND: an address just below it and one at it. -/
theorem witness_StoredByteIsWhatTheNextFetchReads :
    (coreAt [0xFF] 0 2).mem.wf ∧ (0x01 : Byte).toNat < (coreAt [0xFF] 0 2).pend.val ∧
    (coreAt [0xFF] 0 2).pend.val ≤ (0x02 : Byte).toNat := by decide

/-- The hypotheses of the statements on `add`, `sub`, `cmp`, `and`, `or`, `mov`, `inc`, `dec`, `not`, `shr` and `shl`: every
kind of destination that can be written, and a memory in canonical form; and tables that meet R7, with a mode of them, for
the encoding clauses. -/
theorem witness_alu_statements :
    ((Operand.reg .A).kind ≠ .imm ∧ (Operand.indI).kind ≠ .imm ∧ (Operand.dir 0xFF).kind ≠ .imm ∧
      (coreAt [0x10] 0 1).mem.wf) ∧
    z70ref.Valid ∧ z70ref.bmode 0x0 = some ((Operand.reg .A).kind, (Operand.reg .B).kind) ∧
    z70ref.bmode 0xF = some ((Operand.dir 0xFF).kind, (Operand.reg .A).kind) ∧
    z70ref.umode 0x3 = some (Operand.indI).kind := ⟨by decide, z70ref_valid, by decide⟩

theorem witness_AddThenSubRestoresTheDestination : Reg.A ≠ Reg.B := by decide

theorem witness_ConstantDestinationRaisesConstantWrite :
    (Instr.inc (.imm 0x05)).dst = some (.imm 0x05) ∧ ∀ src, Instr.inc (.imm 0x05) ≠ .cmp (.imm 0x05) src :=
  ⟨rfl, fun _ h => by cases h⟩

/-- The hypotheses of the statements on the six jumps: tables that meet R7, a core that has not faulted, the jump byte at
pc, and each clause at its boundary of PEND. -/
theorem witness_jump_statements :
    z70ref.Valid ∧ ∀ c ∈ allJumpOps,
      (coreAt [z70ref.jmpop c, 0x40] 0 2).fault = none ∧
      (coreAt [z70ref.jmpop c, 0x40] 0 2).mem.read 0 = z70ref.jmpop c ∧
      (coreAt [z70ref.jmpop c, 0x40] 0 0).pend.val ≤ 0 ∧ 0 + 1 = (coreAt [z70ref.jmpop c, 0x40] 0 1).pend.val ∧
      0 + 1 < (coreAt [z70ref.jmpop c, 0x40] 0 2).pend.val := ⟨z70ref_valid, by decide⟩

/-- The last clause of `JmpLoadsItsTarget`: a `jmp` to itself whose second byte is the last below PEND. -/
theorem witness_JmpLoadsItsTarget :
    z70ref.Valid ∧ (coreAt [0xFF, 0xF0, 0x01] 1 3).fault = none ∧ 1 + 1 < (coreAt [0xFF, 0xF0, 0x01] 1 3).pend.val ∧
    (coreAt [0xFF, 0xF0, 0x01] 1 3).mem.read 1 = z70ref.jmpop .jmp ∧
    ((coreAt [0xFF, 0xF0, 0x01] 1 3).mem.read 2).toNat = 1 := ⟨z70ref_valid, by decide⟩

/-- The hypotheses of `NopOnlyAdvancesPc`, with PEND just above pc and at pc. -/
theorem witness_NopOnlyAdvancesPc :
    [['A']] ≠ ([] : List Text) ∧ (coreAt [0xFF] 0 1).fault = none ∧ (coreAt [0xFF] 0 1).mem.read 0 = z70ref.nopop ∧
    (coreAt [0xFF] 0 1).pc < (coreAt [0xFF] 0 1).pend.val ∧ ¬ (coreAt [0xFF] 0 0).pc < (coreAt [0xFF] 0 0).pend.val := by
  decide

/-- A taken jump, and one not taken at PEND - 2. -/
theorem witness_JumpTargetDecidesHalting :
    (coreAt [0xF1, 0x40] 0 2).fault = none ∧ 0 + 1 < (coreAt [0xF1, 0x40] 0 2).pend.val ∧
    decodeFirst z70ref ((coreAt [0xF1, 0x40] 0 2).mem.read 0) = .ok (.jump .jz) ∧ taken .jz 0x20 = true ∧
    taken .jz 0x00 = false ∧ 0 + 2 = (coreAt [0xF1, 0x40] 0 2).pend.val := by decide

theorem witness_NewCpuGivesTheResetState : (List.replicate 256 (0x00 : Byte)).length = 256 ∧ 256 ≤ 256 :=
  ⟨List.length_replicate, le_refl _⟩

theorem witness_BadLaunchIsRefused : (List.replicate 255 (0x00 : Byte)).length ≠ 256 ∧ 256 < 257 :=
  ⟨by rw [List.length_replicate]; decide, by decide⟩

/-- A 256-byte image with PEND = 256, the largest, constructs a core. -/
theorem witness_NewCpuMeetsTheInvariant :
    ∃ s, newCpu (List.replicate 256 0x00) [] 256 = .next s :=
  ⟨_, by rw [newCpu, if_neg (by rw [List.length_replicate]; decide), dif_pos (by decide)]⟩

/-- An assembly with a label and a jump: the hypothesis of the statements about assemblies, with a listing that is not
empty. -/
theorem witness_assembly_statements :
    ∃ a, assembleWith z70ref (source ["L: jmp L"]) = .ok a ∧
      a.listing = [] ++ { addr := 0, bytes := [0xF0, 0x00], text := "L: jmp L".toList } :: [] := ⟨_, rfl, by decide⟩

/-- An assembly whose listing is empty: a label-only line. -/
theorem witness_empty_assembly : ∃ a, assembleWith z70ref (source ["L:"]) = .ok a ∧ a.listing = [] := ⟨_, rfl, rfl⟩

theorem witness_DuplicateLabelAbortsAssembly :
    preprocess (source ["X: nop", "X: nop"]) =
      [] ++ ("X: nop".toList, "X: nop".toList) :: ([] ++ ("X: nop".toList, "X: nop".toList) :: []) ∧
    parseLine "X: nop".toList = .ok { label := some ['X'], body := some (nopText, []) } := by decide

theorem witness_UndefinedLabelAbortsAssembly :
    ("jmp X".toList, "jmp X".toList) ∈ preprocess (source ["jmp X"]) ∧
    parseLine "jmp X".toList = .ok { label := none, body := some (['j', 'm', 'p'], [['X']]) } ∧
    parseItem ['j', 'm', 'p'] [['X']] = .ok (.jump .jmp ['X']) ∧
    ∀ l ∈ preprocess (source ["jmp X"]), (match parseLine l.1 with | .ok p => p.label | .error _ => none) = none := by
  decide

theorem witness_MinusNegatesAHexToken :
    hexToken "80H".toList = some 0x80 ∧ "80H".toList.head? ≠ some '-' := by decide

end Sys2Proof.Tests
end

section
/-! SUPPORT. The flag hook and parity (R150, R151): what the hook's flags read, and parity as a count over the
positions of a byte. -/

namespace Sys2Proof.Proofs.Execution
open Sys2Proof.Machine

/-! ## The flag hook (R150) -/

/-- Settles O25: one accessor at a time, by what each reads of the hook. -/
theorem flagHookWritesAllFiveFlags : Obligations.FlagHookWritesAllFiveFlags := by
  intro f r carry overflow logical
  refine ⟨?zero, flagSF_hook .., flagPF_hook .., ?carry, ?overflow, flagReserved_hook ..⟩
  case zero => rw [flagZF_hook, beq_iff_eq]
  case carry =>
    rw [flagCF_hook]
    cases logical <;> rfl
  case overflow =>
    rw [flagOF_hook]
    cases logical <;> rfl

/-! ## Parity (R151) -/

/-- The sum of a byte's bits is the number of positions that hold a 1 (R9). -/
theorem popcount_eq_card (v : Byte) :
    popcount v = (Finset.univ.filter fun k : Fin 8 => v.getLsbD k = true).card := by
  have bit_eq_ite (b : Bool) : b.toNat = if b = true then 1 else 0 := by cases b <;> rfl
  calc popcount v
      = ∑ k ∈ Finset.range 8, (v.getLsbD k).toNat := rfl
    _ = ∑ k : Fin 8, (v.getLsbD k).toNat := Finset.sum_range _
    _ = ∑ k : Fin 8, if v.getLsbD k = true then 1 else 0 := Finset.sum_congr rfl fun k _ => bit_eq_ite _
    _ = _ := (Finset.card_filter _ _).symm

theorem parity_iff_even_popcount (v : Byte) : parity v = true ↔ Even (popcount v) := by
  rw [parity, beq_iff_eq, Nat.even_iff]

/-- Settles O26: parity tests the popcount, and the popcount counts the set positions. -/
theorem parityIsEvenNumberOfSetBits : Obligations.ParityIsEvenNumberOfSetBits := by
  refine ⟨fun v => ?_, rfl⟩
  rw [parity_iff_even_popcount, popcount_eq_card]

end Sys2Proof.Proofs.Execution
end

section
/-! SUPPORT. The binary instructions (R170-R176): how each is encoded, what each ALU operation computes, and that an
instruction writes its destination, FLAGS and pc, and nothing else. -/

namespace Sys2Proof.Proofs.Binary
open Sys2Proof.Machine

/-! ## Encoding (R90, R116, R119) -/

/-- The row that holds the operands' kinds is the one the mode search finds, since no two codes share a row (R7). -/
theorem binaryCode_binary (o : BinOp) : BinaryCode o (refOpc (.bin o)) (Instr.binary o) := by
  refine ⟨rfl, fun T hT d src m hm => ?_⟩
  rw [encodeWith_binary, encodeBinary, findBinaryMode_eq hT hm, Option.map_some]

/-! ## What each ALU operation computes (R148, R149) -/

section Alu
variable (d src f : Byte) (wen : Bool)

theorem addOv_eq_decide_lt_or_lt :
    addOv d src = decide (d.toInt + src.toInt < -128 ∨ 127 < d.toInt + src.toInt) := by
  rw [addOv, signed8_eq_toInt, signed8_eq_toInt, ← decide_not, decide_eq_decide]
  omega

theorem subOv_eq_decide_lt_or_lt :
    subOv d src = decide (d.toInt - src.toInt < -128 ∨ 127 < d.toInt - src.toInt) := by
  rw [subOv, signed8_eq_toInt, signed8_eq_toInt, ← decide_not, decide_eq_decide]
  omega

theorem aluAdd_result_toNat : (aluAdd d src f).result.toNat = (d.toNat + src.toNat) % 256 :=
  BitVec.toNat_ofNat ..

theorem flagCF_aluAdd : flagCF (aluAdd d src f).flags = decide (255 < d.toNat + src.toNat) :=
  flagCF_hook ..

theorem flagOF_aluAdd : flagOF (aluAdd d src f).flags =
    decide (d.toInt + src.toInt < -128 ∨ 127 < d.toInt + src.toInt) :=
  (flagOF_hook ..).trans (addOv_eq_decide_lt_or_lt d src)

theorem resultFlags_aluAdd : ResultFlags f (aluAdd d src f).flags (aluAdd d src f).result :=
  resultFlags_hook ..

theorem aluSub_result_toNat :
    ((aluSub wen d src f).result.toNat : Int) = (d.toNat - src.toNat : Int) % 256 := by
  have hd := d.isLt
  have hsrc := src.isLt
  rw [aluSub, BitVec.toNat_sub]
  omega

theorem flagCF_aluSub : flagCF (aluSub wen d src f).flags = decide (d.toNat < src.toNat) :=
  flagCF_hook ..

theorem flagOF_aluSub : flagOF (aluSub wen d src f).flags =
    decide (d.toInt - src.toInt < -128 ∨ 127 < d.toInt - src.toInt) :=
  (flagOF_hook ..).trans (subOv_eq_decide_lt_or_lt d src)

theorem resultFlags_aluSub : ResultFlags f (aluSub wen d src f).flags (d - src) :=
  resultFlags_hook ..

theorem aluAnd_result_getLsbD (k : Nat) :
    (aluAnd d src f).result.getLsbD k = (d.getLsbD k && src.getLsbD k) :=
  BitVec.getLsbD_and

theorem flagCF_aluAnd : flagCF (aluAnd d src f).flags = false := flagCF_hook ..

theorem flagOF_aluAnd : flagOF (aluAnd d src f).flags = false := flagOF_hook ..

theorem resultFlags_aluAnd : ResultFlags f (aluAnd d src f).flags (aluAnd d src f).result :=
  resultFlags_hook ..

theorem aluOr_result_getLsbD (k : Nat) :
    (aluOr d src f).result.getLsbD k = (d.getLsbD k || src.getLsbD k) :=
  BitVec.getLsbD_or

theorem flagCF_aluOr : flagCF (aluOr d src f).flags = false := flagCF_hook ..

theorem flagOF_aluOr : flagOF (aluOr d src f).flags = false := flagOF_hook ..

theorem resultFlags_aluOr : ResultFlags f (aluOr d src f).flags (aluOr d src f).result :=
  resultFlags_hook ..

end Alu

/-! ## Executing a binary instruction -/

/-- The ALU operation of a binary mnemonic, on the two operands and FLAGS (R148). -/
def aluBinary : BinOp → Byte → Byte → Byte → AluOut
  | .add => aluAdd
  | .sub => aluSub true
  | .cmp => aluSub false
  | .and => aluAnd
  | .or => aluOr
  | .mov => fun _ src f => aluPass src f

/-- Every binary instruction reads both operands and then commits its ALU result (R170). -/
theorem exec_binary (o : BinOp) (d src : Operand) (s : State) : exec (Instr.binary o d src) s =
    commit (binarySize d src) d (aluBinary o (readOperand s d) (readOperand s src) s.flags) s := by
  cases o <;> rfl

/-- The ALU writes a result for every binary mnemonic but `cmp` (R173). -/
theorem aluBinary_wen {o : BinOp} (ho : o ≠ .cmp) (x y f : Byte) : (aluBinary o x y f).wen = true := by
  cases o with
  | cmp => exact absurd rfl ho
  | add | sub | and | or | mov => rfl

theorem binarySize_eq_length (d src : Operand) :
    binarySize d src = 1 + d.extraBytes.length + src.extraBytes.length := by
  rw [binarySize, operandBytes_eq_length, operandBytes_eq_length]

theorem frame_setFlags_setPc (s : State) (f : Byte) (p : Nat) : Frame s ((s.setFlags f).setPc p) none :=
  ⟨by simp, by simp, rfl, rfl, rfl⟩

/-- What every binary instruction but `cmp` does where its destination can be written. -/
theorem exec_binary_writes {o : BinOp} {d : Operand} {s : State} (ho : o ≠ .cmp) (src : Operand)
    (hd : d.kind ≠ .imm) (hs : s.mem.wf) :
    ∃ t, exec (Instr.binary o d src) s = .next t ∧
      readLocation t (locate s d) = (aluBinary o (readOperand s d) (readOperand s src) s.flags).result ∧
      t.flags = (aluBinary o (readOperand s d) (readOperand s src) s.flags).flags ∧
      t.pc = s.pc + (1 + d.extraBytes.length + src.extraBytes.length) ∧ Frame s t (some (locate s d)) := by
  rw [exec_binary, ← binarySize_eq_length]
  exact commit_writes hd (aluBinary_wen ho ..) hs

/-! ## The six instructions (R171-R176) -/

/-- Settles O27: the sum of the ALU is what the destination holds after the step. -/
theorem addWritesSumAndFlags : Obligations.AddWritesSumAndFlags := by
  refine ⟨binaryCode_binary .add, fun d src s hd hs => ?_⟩
  obtain ⟨t, ht, hresult, hflags, hpc, hframe⟩ := exec_binary_writes (o := .add) (by decide) src hd hs
  refine ⟨t, ht, ?_⟩
  rw [hresult, hflags]
  exact ⟨aluAdd_result_toNat .., flagCF_aluAdd .., flagOF_aluAdd .., resultFlags_aluAdd .., hpc, hframe⟩

/-- Settles O28: the difference of the ALU is what the destination holds after the step. -/
theorem subWritesDifferenceAndFlags : Obligations.SubWritesDifferenceAndFlags := by
  refine ⟨binaryCode_binary .sub, fun d src s hd hs => ?_⟩
  obtain ⟨t, ht, hresult, hflags, hpc, hframe⟩ := exec_binary_writes (o := .sub) (by decide) src hd hs
  refine ⟨t, ht, ?_⟩
  rw [hresult, hflags]
  exact ⟨aluSub_result_toNat .., flagCF_aluSub .., flagOF_aluSub .., resultFlags_aluSub .., hpc, hframe⟩

/-- Settles O29: the ALU of `cmp` enables no write, so only FLAGS and pc are set, even for a constant destination. -/
theorem cmpSetsFlagsOfDifferenceOnly : Obligations.CmpSetsFlagsOfDifferenceOnly := by
  refine ⟨binaryCode_binary .cmp, fun d src s => ?_⟩
  rw [← binarySize_eq_length]
  refine ⟨_, (exec_binary .cmp d src s).trans (commit_flags_only rfl), ?_⟩
  exact ⟨flagCF_aluSub (wen := false) .., flagOF_aluSub (wen := false) .., resultFlags_aluSub (wen := false) ..,
    rfl, frame_setFlags_setPc ..⟩

/-- Settles O30: the conjunction of the ALU, whose hook call is a logical one. -/
theorem andWritesConjunctionAndClearsCarryOverflow : Obligations.AndWritesConjunctionAndClearsCarryOverflow := by
  refine ⟨binaryCode_binary .and, fun d src s hd hs => ?_⟩
  obtain ⟨t, ht, hresult, hflags, hpc, hframe⟩ := exec_binary_writes (o := .and) (by decide) src hd hs
  refine ⟨t, ht, ?_⟩
  rw [hresult, hflags]
  exact ⟨fun k _ => aluAnd_result_getLsbD .., flagCF_aluAnd .., flagOF_aluAnd .., resultFlags_aluAnd .., hpc, hframe⟩

/-- Settles O31: the disjunction of the ALU, whose hook call is a logical one. -/
theorem orWritesDisjunctionAndClearsCarryOverflow : Obligations.OrWritesDisjunctionAndClearsCarryOverflow := by
  refine ⟨binaryCode_binary .or, fun d src s hd hs => ?_⟩
  obtain ⟨t, ht, hresult, hflags, hpc, hframe⟩ := exec_binary_writes (o := .or) (by decide) src hd hs
  refine ⟨t, ht, ?_⟩
  rw [hresult, hflags]
  exact ⟨fun k _ => aluOr_result_getLsbD .., flagCF_aluOr .., flagOF_aluOr .., resultFlags_aluOr .., hpc, hframe⟩

/-- Settles O32: the ALU passes the source and FLAGS through unchanged. -/
theorem movCopiesAndWritesNoFlag : Obligations.MovCopiesAndWritesNoFlag :=
  ⟨binaryCode_binary .mov, fun _ src _ hd hs => exec_binary_writes (o := .mov) (by decide) src hd hs⟩

end Sys2Proof.Proofs.Binary
end

section
/-! SUPPORT. The unary instructions (R200-R205): how each is encoded, what each ALU operation computes, and that an
instruction writes its destination, FLAGS and pc, and nothing else. -/

namespace Sys2Proof.Proofs.Unary
open Sys2Proof.Machine Sys2Proof.Proofs.Binary

/-! ## Encoding (R90, R115, R119) -/

theorem extraBytes_eq_nil {d : Operand} (hd : d.kind.isExtra = false) : d.extraBytes = [] := by
  cases d with
  | reg | indI => rfl
  | imm | dir => cases hd

/-- The row that holds the destination's kind is the one the mode search finds, and no such kind has an extra byte (R7). -/
theorem unaryCode_unary (o : UnOp) : UnaryCode o (refOpc (.un o)) (Instr.unary o) := by
  refine ⟨rfl, fun T hT d m hm => ?_⟩
  rw [encodeWith_unary, encodeUnary, findUnaryMode_eq hT hm, Option.map_some, extraBytes_eq_nil (hT.umode_dst m _ hm)]

/-! ## What each ALU operation computes (R148, R149) -/

section Alu
variable (d f : Byte)

/-- Adding 1 leaves the signed range only from its top, 127. -/
theorem addOv_one : addOv d 1 = decide (d.toNat = 0x7F) := by
  have hone : (1 : Byte).toInt = 1 := rfl
  have hd := d.isLt
  rw [addOv_eq_decide_lt_or_lt, decide_eq_decide, hone, BitVec.toInt_eq_toNat_cond]
  omega

/-- Subtracting 1 leaves the signed range only from its bottom, -128. -/
theorem subOv_one : subOv d 1 = decide (d.toNat = 0x80) := by
  have hone : (1 : Byte).toInt = 1 := rfl
  have hd := d.isLt
  rw [subOv_eq_decide_lt_or_lt, decide_eq_decide, hone, BitVec.toInt_eq_toNat_cond]
  omega

theorem aluInc_result_toNat : (aluInc d f).result.toNat = (d.toNat + 1) % 256 :=
  BitVec.toNat_add ..

theorem flagCF_aluInc : flagCF (aluInc d f).flags = flagCF f := flagCF_hook ..

theorem flagOF_aluInc : flagOF (aluInc d f).flags = decide (d.toNat = 0x7F) :=
  (flagOF_hook ..).trans (addOv_one d)

theorem resultFlags_aluInc : ResultFlags f (aluInc d f).flags (aluInc d f).result :=
  resultFlags_hook ..

theorem aluDec_result_toNat : (aluDec d f).result.toNat = (d.toNat + 255) % 256 := by
  rw [Nat.add_comm]
  exact BitVec.toNat_sub ..

theorem flagCF_aluDec : flagCF (aluDec d f).flags = flagCF f := flagCF_hook ..

theorem flagOF_aluDec : flagOF (aluDec d f).flags = decide (d.toNat = 0x80) :=
  (flagOF_hook ..).trans (subOv_one d)

theorem resultFlags_aluDec : ResultFlags f (aluDec d f).flags (aluDec d f).result :=
  resultFlags_hook ..

theorem aluNot_result_toNat : (aluNot d f).result.toNat = 0xFF - d.toNat :=
  BitVec.toNat_not

theorem aluShr_result_toNat : (aluShr d f).result.toNat = d.toNat / 2 := by
  rw [aluShr, BitVec.toNat_ushiftRight, Nat.shiftRight_one]

theorem flagCF_aluShr : flagCF (aluShr d f).flags = decide (d.toNat % 2 = 1) :=
  (flagCF_hook ..).trans (Nat.testBit_zero d.toNat)

theorem flagOF_aluShr : flagOF (aluShr d f).flags = decide (128 ≤ d.toNat) :=
  (flagOF_hook ..).trans (getLsbD_seven d)

theorem resultFlags_aluShr : ResultFlags f (aluShr d f).flags (aluShr d f).result :=
  resultFlags_hook ..

/-- Half of a byte is below 128, so the sign of the result is 0. -/
theorem flagSF_aluShr : flagSF (aluShr d f).flags = false := by
  obtain ⟨-, hsign, -, -⟩ := resultFlags_aluShr d f
  have hd := d.isLt
  rw [hsign, aluShr_result_toNat, decide_eq_false_iff_not]
  omega

end Alu

/-! ## Executing a unary instruction -/

/-- The ALU operation of a unary mnemonic, on the operand and FLAGS (R148). -/
def aluUnary : UnOp → Byte → Byte → AluOut
  | .inc => aluInc
  | .dec => aluDec
  | .not => aluNot
  | .shr => aluShr
  | .shl => aluShl

/-- Every unary instruction reads its destination and then commits its ALU result (R88). -/
theorem exec_unary (o : UnOp) (d : Operand) (s : State) : exec (Instr.unary o d) s =
    commit (unarySize d) d (aluUnary o (readOperand s d) s.flags) s := by
  cases o <;> rfl

/-- The ALU writes a result for every unary mnemonic. -/
theorem aluUnary_wen (o : UnOp) (x f : Byte) : (aluUnary o x f).wen = true := by
  cases o <;> rfl

theorem unarySize_eq_length (d : Operand) : unarySize d = 1 + d.extraBytes.length := by
  rw [unarySize, operandBytes_eq_length]

/-- What every unary instruction does where its destination can be written. -/
theorem exec_unary_writes (o : UnOp) {d : Operand} {s : State} (hd : d.kind ≠ .imm) (hs : s.mem.wf) :
    ∃ t, exec (Instr.unary o d) s = .next t ∧
      readLocation t (locate s d) = (aluUnary o (readOperand s d) s.flags).result ∧
      t.flags = (aluUnary o (readOperand s d) s.flags).flags ∧
      t.pc = s.pc + (1 + d.extraBytes.length) ∧ Frame s t (some (locate s d)) := by
  rw [exec_unary, ← unarySize_eq_length]
  exact commit_writes hd (aluUnary_wen ..) hs

/-! ## The instructions `inc`, `dec`, `not` and `shr` (R201-R204) -/

/-- Settles O34: the ALU hands the old CF to the flag hook, and the successor overflows at 127 alone. -/
theorem incAddsOneAndKeepsCarry : Obligations.IncAddsOneAndKeepsCarry := by
  refine ⟨unaryCode_unary .inc, fun d s hd hs => ?_⟩
  obtain ⟨t, ht, hresult, hflags, hpc, hframe⟩ := exec_unary_writes .inc hd hs
  refine ⟨t, ht, ?_⟩
  rw [hresult, hflags]
  exact ⟨aluInc_result_toNat .., flagCF_aluInc .., flagOF_aluInc .., resultFlags_aluInc .., hpc, hframe⟩

/-- Settles O35: the ALU hands the old CF to the flag hook, and the predecessor overflows at -128 alone. -/
theorem decSubtractsOneAndKeepsCarry : Obligations.DecSubtractsOneAndKeepsCarry := by
  refine ⟨unaryCode_unary .dec, fun d s hd hs => ?_⟩
  obtain ⟨t, ht, hresult, hflags, hpc, hframe⟩ := exec_unary_writes .dec hd hs
  refine ⟨t, ht, ?_⟩
  rw [hresult, hflags]
  exact ⟨aluDec_result_toNat .., flagCF_aluDec .., flagOF_aluDec .., resultFlags_aluDec .., hpc, hframe⟩

/-- Settles O36: the ALU complements the operand and passes FLAGS through. -/
theorem notWritesComplementAndNoFlag : Obligations.NotWritesComplementAndNoFlag := by
  refine ⟨unaryCode_unary .not, fun d s hd hs => ?_⟩
  obtain ⟨t, ht, hresult, hflags, hpc, hframe⟩ := exec_unary_writes .not hd hs
  refine ⟨t, ht, ?_, hflags, hpc, hframe⟩
  rw [hresult]
  exact aluNot_result_toNat ..

/-- Settles O37: CF is the bit shifted out, OF the old bit 7, and the half leaves bit 7 clear. -/
theorem shrShiftsRightByOne : Obligations.ShrShiftsRightByOne := by
  refine ⟨unaryCode_unary .shr, fun d s hd hs => ?_⟩
  obtain ⟨t, ht, hresult, hflags, hpc, hframe⟩ := exec_unary_writes .shr hd hs
  refine ⟨t, ht, ?_⟩
  rw [hresult, hflags]
  exact ⟨aluShr_result_toNat .., flagCF_aluShr .., flagOF_aluShr .., flagSF_aluShr .., resultFlags_aluShr .., hpc, hframe⟩

end Sys2Proof.Proofs.Unary
end

section
/-! SUPPORT. The decoder and the encoder (R81-R94, R115, R116, R129): both are the one relation `IsEncoding` between the
bytes of an instruction and the instruction, so each round trip, the length and the fetch follow from it. -/

namespace Sys2Proof.Proofs.Encoding
open Sys2Proof.Proofs.Unary

/-! ## The bytes of an instruction -/

/-- `bytes` are exactly the bytes of `i`: a legal first byte, and after it a second byte where the form has one. -/
def IsEncoding (T : IsaTables) (bytes : List Byte) (i : Instr) : Prop :=
  ∃ b f extra, bytes = b :: extra ∧ decodeFirst T b = .ok f ∧ extra.length = f.hasSecondByte.toNat ∧
    i = f.toInstr (extra.headD 0)

theorem length_eq_one_add (f : Form) : f.length = 1 + f.hasSecondByte.toNat := by
  unfold Form.length
  cases f.hasSecondByte <;> rfl

/-! ## The decoder (R83, R86) -/

theorem decodeWith_illegal {T : IsaTables} {b : Byte} {c : IllegalCause} (h : decodeFirst T b = .error c)
    (rest : List Byte) : decodeWith T (b :: rest) = .error (.illegal c b) := by
  simp [decodeWith, h]

theorem decodeWith_short {T : IsaTables} {b : Byte} {f : Form} (h : decodeFirst T b = .ok f)
    (hf : f.hasSecondByte = false) (rest : List Byte) : decodeWith T (b :: rest) = .ok (f.toInstr 0, rest) := by
  simp [decodeWith, h, hf]

theorem decodeWith_long {T : IsaTables} {b : Byte} {f : Form} (h : decodeFirst T b = .ok f)
    (hf : f.hasSecondByte = true) (x : Byte) (rest : List Byte) :
    decodeWith T (b :: x :: rest) = .ok (f.toInstr x, rest) := by
  simp [decodeWith, h, hf]

theorem decodeWith_cut {T : IsaTables} {b : Byte} {f : Form} (h : decodeFirst T b = .ok f)
    (hf : f.hasSecondByte = true) : decodeWith T [b] = .error .truncated := by
  simp [decodeWith, h, hf]

/-- The decoder takes the bytes of an instruction and leaves what follows them. -/
theorem decodeWith_append {T : IsaTables} {e : List Byte} {i : Instr} (h : IsEncoding T e i) (rest : List Byte) :
    decodeWith T (e ++ rest) = .ok (i, rest) := by
  obtain ⟨b, f, extra, rfl, hf, hlen, rfl⟩ := h
  cases hs : f.hasSecondByte with
  | false =>
    obtain rfl : extra = [] := by simpa [hs] using hlen
    exact decodeWith_short hf hs rest
  | true =>
    obtain ⟨x, rfl⟩ : ∃ x, extra = [x] := by simpa [hs, List.length_eq_one_iff] using hlen
    exact decodeWith_long hf hs x rest

/-- All that the decoder can have done where it answers. -/
theorem isEncoding_of_decodeWith {T : IsaTables} {bytes rest : List Byte} {i : Instr}
    (h : decodeWith T bytes = .ok (i, rest)) : ∃ e, bytes = e ++ rest ∧ IsEncoding T e i := by
  cases bytes with
  | nil => cases h
  | cons b tail =>
    cases hf : decodeFirst T b with
    | error c => rw [decodeWith_illegal hf] at h; cases h
    | ok f =>
      cases hs : f.hasSecondByte with
      | false =>
        rw [decodeWith_short hf hs] at h
        cases h
        exact ⟨[b], rfl, b, f, [], rfl, hf, by simp [hs], rfl⟩
      | true =>
        cases tail with
        | nil => rw [decodeWith_cut hf hs] at h; cases h
        | cons x tail =>
          rw [decodeWith_long hf hs] at h
          cases h
          exact ⟨[b, x], rfl, b, f, [x], rfl, hf, by simp [hs], rfl⟩

/-! ## The encoder (R119-R121) -/

theorem length_extraBytes (o : Operand) : o.extraBytes.length = o.kind.isExtra.toNat := by
  cases o <;> rfl

/-- An operand is its kind, filled in with its own extra byte, or with any byte where it has none (R146). -/
theorem resolve_headD_extraBytes (o : Operand) (x : Byte) : o.kind.resolve (o.extraBytes.headD x) = o := by
  cases o <;> rfl

theorem isEncoding_encodeBinary {T : IsaTables} (hT : T.Valid) {o : BinOp} {d s : Operand} {e : List Byte}
    (h : encodeBinary T o d s = some e) : IsEncoding T e (Instr.binary o d s) := by
  obtain ⟨m, hm, rfl⟩ := Option.map_eq_some_iff.1 h
  have hrow := findBinaryMode_some hm
  have hone := hT.bmode_one_extra m _ _ hrow
  refine ⟨_, _, _, rfl, decodeFirst_binary hT o hrow, ?length, ?operands⟩
  case length =>
    rw [List.length_append, length_extraBytes, length_extraBytes, Form.hasSecondByte]
    revert hone
    cases d.kind.isExtra <;> cases s.kind.isExtra <;> decide
  case operands =>
    cases hd : d.kind.isExtra with
    | false =>
      rw [extraBytes_eq_nil hd, List.nil_append, Form.toInstr, resolve_kind (.inr hd), resolve_headD_extraBytes]
    | true =>
      have hs : s.kind.isExtra = false := by simpa [hd] using hone
      rw [extraBytes_eq_nil hs, List.append_nil, Form.toInstr, resolve_kind (.inr hs), resolve_headD_extraBytes]

theorem isEncoding_encodeUnary {T : IsaTables} (hT : T.Valid) {o : UnOp} {d : Operand} {e : List Byte}
    (h : encodeUnary T o d = some e) : IsEncoding T e (Instr.unary o d) := by
  obtain ⟨m, hm, rfl⟩ := Option.map_eq_some_iff.1 h
  refine ⟨_, _, _, rfl, decodeFirst_unary hT o (findUnaryMode_some hm), length_extraBytes d, ?_⟩
  rw [Form.toInstr, resolve_headD_extraBytes]

theorem isEncoding_jump {T : IsaTables} (hT : T.Valid) (c : JumpOp) (t : Byte) :
    IsEncoding T [T.jmpop c, t] (Instr.jump c t) :=
  ⟨_, _, [t], rfl, decodeFirst_jump hT c, rfl, rfl⟩

theorem isEncoding_nop (T : IsaTables) : IsEncoding T [T.nopop] .nop :=
  ⟨_, _, [], rfl, decodeFirst_nop T, rfl, rfl⟩

/-- What the encoder emits is the bytes of the instruction. -/
theorem isEncoding_of_encodeWith {T : IsaTables} (hT : T.Valid) {i : Instr} {e : List Byte}
    (h : encodeWith T i = some e) : IsEncoding T e i := by
  rcases i.cases_by_form with ⟨o, d, s, rfl⟩ | ⟨o, d, rfl⟩ | ⟨c, t, rfl⟩ | rfl
  · exact isEncoding_encodeBinary hT (encodeWith_binary T o d s ▸ h)
  · exact isEncoding_encodeUnary hT (encodeWith_unary T o d ▸ h)
  · rw [encodeWith_jump] at h
    cases h
    exact isEncoding_jump hT c t
  · cases h
    exact isEncoding_nop T

/-- The one extra byte of a row is the one its operands put into the instruction (R7 item 3, R146). -/
theorem extraBytes_resolve_append {dk sk : OperandKind} {extra : List Byte} (hone : (dk.isExtra && sk.isExtra) = false)
    (hlen : extra.length = (dk.isExtra || sk.isExtra).toNat) :
    (dk.resolve (extra.headD 0)).extraBytes ++ (sk.resolve (extra.headD 0)).extraBytes = extra := by
  rw [extraBytes_resolve, extraBytes_resolve]
  match extra with
  | [] =>
    obtain ⟨hd, hs⟩ : dk.isExtra = false ∧ sk.isExtra = false := by
      revert hlen
      cases dk.isExtra <;> cases sk.isExtra <;> decide
    simp [hd, hs]
  | [x] =>
    revert hone hlen
    cases dk.isExtra <;> cases sk.isExtra <;> simp
  | _ :: _ :: _ =>
    revert hlen
    cases dk.isExtra <;> cases sk.isExtra <;> simp

/-- The bytes of an instruction are what the encoder emits for it: no other bytes stand for it (R89). -/
theorem encodeWith_of_isEncoding {T : IsaTables} (hT : T.Valid) {i : Instr} {e : List Byte} (h : IsEncoding T e i) :
    encodeWith T i = some e := by
  obtain ⟨b, f, extra, rfl, hf, hlen, rfl⟩ := h
  rcases decodeFirst_cases hf with ⟨rfl, rfl⟩ | ⟨c, rfl, rfl⟩ | ⟨o, dk, sk, hb, hrow, rfl⟩ | ⟨o, dk, hb, hrow, rfl⟩
  · obtain rfl := List.length_eq_zero_iff.1 hlen
    rfl
  · obtain ⟨t, rfl⟩ := List.length_eq_one_iff.1 hlen
    exact encodeWith_jump T c t
  · rw [Form.toInstr, encodeWith_binary, encodeBinary, findBinaryMode_eq hT (by simpa using hrow), Option.map_some,
      extraBytes_resolve_append (hT.bmode_one_extra _ _ _ hrow) hlen, ← hb]
  · have hdk := hT.umode_dst _ _ hrow
    obtain rfl := List.length_eq_zero_iff.1 (hlen.trans (congrArg Bool.toNat hdk))
    rw [Form.toInstr, encodeWith_unary, encodeUnary, findUnaryMode_eq hT (by simpa using hrow), Option.map_some,
      extraBytes_eq_nil (by simpa using hdk), ← hb]

theorem isSome_encodeWith (T : IsaTables) (i : Instr) : (encodeWith T i).isSome = i.wf T := by
  cases i with
  | add | sub | cmp | and | or | mov => exact Laws.EncodesIffWellFormed.of_binary ..
  | inc | dec | not | shr | shl => exact Laws.EncodesIffWellFormed.of_unary ..
  | jmp | jz | js | jc | jo | jp | nop => rfl

/-! ## The round trips (R89, R129) -/

/-- Settles O1: a well-formed instruction has an encoding, and the decoder reads an encoding back. -/
theorem decodeOfEncodeIsTheInstruction : Obligations.DecodeOfEncodeIsTheInstruction := by
  intro T hT i hwf
  obtain ⟨e, he⟩ := Option.isSome_iff_exists.1 ((isSome_encodeWith T i).trans hwf)
  exact ⟨e, he, decodeWith_append (isEncoding_of_encodeWith hT he)⟩

/-- Settles O2: the bytes the decoder takes are an encoding, and an encoding is what the encoder emits. -/
theorem encodeOfDecodeIsTheBytes : Obligations.EncodeOfDecodeIsTheBytes := by
  intro T hT bytes i rest h
  obtain ⟨e, hbytes, hi⟩ := isEncoding_of_decodeWith h
  have he := encodeWith_of_isEncoding hT hi
  exact ⟨by rw [← isSome_encodeWith, he, Option.isSome_some], e, he, hbytes⟩

/-! ## The length (R86) -/

/-- Under tables that meet R7 no unary form has a second byte, so the length is a matter of jumps and binary rows. -/
theorem length_of_decodeFirst {T : IsaTables} (hT : T.Valid) {b : Byte} {f : Form} (h : decodeFirst T b = .ok f) :
    f.length = match f with
      | .nop => 1
      | .jump _ => 2
      | .unary _ _ => 1
      | .binary _ dk sk => if dk.isExtra = true ∨ sk.isExtra = true then 2 else 1 := by
  rcases decodeFirst_cases h with ⟨-, rfl⟩ | ⟨c, -, rfl⟩ | ⟨o, dk, sk, -, -, rfl⟩ | ⟨o, dk, -, hrow, rfl⟩
  · rfl
  · rfl
  · simp [Form.length, Form.hasSecondByte]
  · simp [Form.length, Form.hasSecondByte, hT.umode_dst _ _ hrow]

/-- Settles O4: the first byte alone gives the form, and the form says how many bytes the decoder takes. -/
theorem lengthFollowsFromFirstByte : Obligations.LengthFollowsFromFirstByte := by
  intro T hT b rest
  refine ⟨fun c hc => decodeWith_illegal hc rest, fun f hf => ⟨?length, ?truncated, ?taken⟩⟩
  case length => exact (length_of_decodeFirst hT hf).trans (by cases f <;> rfl)
  case truncated =>
    intro hlen
    cases hs : f.hasSecondByte with
    | false => simp [length_eq_one_add, hs] at hlen
    | true =>
      obtain rfl : rest = [] := by simpa [length_eq_one_add, hs] using hlen
      exact decodeWith_cut hf hs
  case taken =>
    intro hlen
    have hlen' : f.hasSecondByte.toNat ≤ rest.length := by
      rw [length_eq_one_add] at hlen
      omega
    have he : IsEncoding T (b :: rest.take f.hasSecondByte.toNat) _ :=
      ⟨b, f, _, rfl, hf, List.length_take_of_le hlen', rfl⟩
    have hdecode := decodeWith_append he (rest.drop f.hasSecondByte.toNat)
    rw [List.cons_append, List.take_append_drop] at hdecode
    refine ⟨_, _, hdecode, ?_⟩
    rw [length_eq_one_add, Nat.add_comm, List.take_succ_cons, List.cons_append, List.take_append_drop]

/-! ## The mode search (R115, R116) -/

/-- A search of a rising list finds the least element it accepts. -/
theorem find?_eq_some_of_least {n : Nat} {l : List (BitVec n)} {p : BitVec n → Bool} {m : BitVec n}
    (hl : l.Pairwise (· < ·)) (hm : m ∈ l) (hp : p m = true) (hleast : ∀ m' < m, p m' = false) :
    l.find? p = some m := by
  cases h : l.find? p with
  | none => exact absurd hp (by simpa using List.find?_eq_none.1 h m hm)
  | some b =>
    obtain ⟨hb, skipped, later, rfl, hskipped⟩ := List.find?_eq_some_iff_append.1 h
    rcases List.mem_append.1 hm with hm | hm
    · simpa [hp] using hskipped m hm
    rcases List.mem_cons.1 hm with rfl | hm
    · rfl
    · have hlt : b < m := List.rel_of_pairwise_cons (List.pairwise_append.1 hl).2.1 hm
      simp [hleast b hlt] at hb

theorem pairwise_lt_allNibbles : allNibbles.Pairwise (· < ·) := by decide

theorem findBinaryMode_of_least {T : IsaTables} {d s : Operand} {m : Nibble} (hm : T.bmode m = some (d.kind, s.kind))
    (hleast : ∀ m' < m, T.bmode m' ≠ some (d.kind, s.kind)) : findBinaryMode T d s = some m :=
  find?_eq_some_of_least pairwise_lt_allNibbles (mem_allNibbles m) (by simp [hm]) fun m' h => by simpa using hleast m' h

theorem findUnaryMode_of_least {T : IsaTables} {d : Operand} {m : Nibble} (hm : T.umode m = some d.kind)
    (hleast : ∀ m' < m, T.umode m' ≠ some d.kind) : findUnaryMode T d = some m :=
  find?_eq_some_of_least pairwise_lt_allNibbles (mem_allNibbles m) (by simp [hm]) fun m' h => by simpa using hleast m' h

theorem encodeWith_binary_eq_none {T : IsaTables} (o : BinOp) {d s : Operand}
    (h : ∀ m, T.bmode m ≠ some (d.kind, s.kind)) : encodeWith T (Instr.binary o d s) = none := by
  rw [encodeWith_binary, encodeBinary, findBinaryMode, List.find?_eq_none.2 fun m _ => by simpa using h m,
    Option.map_none]

theorem encodeWith_unary_eq_none {T : IsaTables} (o : UnOp) {d : Operand} (h : ∀ m, T.umode m ≠ some d.kind) :
    encodeWith T (Instr.unary o d) = none := by
  rw [encodeWith_unary, encodeUnary, findUnaryMode, List.find?_eq_none.2 fun m _ => by simpa using h m,
    Option.map_none]

/-- No unary destination is an extra kind, so such an operand has no encoding (R7 items 4 and 5, R93). -/
theorem encodeWith_unary_extra {T : IsaTables} (hT : T.Valid) (o : UnOp) {d : Operand} (hd : d.kind.isExtra = true) :
    encodeWith T (Instr.unary o d) = none :=
  encodeWith_unary_eq_none o fun m hm => by simpa [hd] using hT.umode_dst m _ hm

/-- Settles O5: the search runs through the codes in rising order. -/
theorem modeSearchTakesTheFirstMatchingRow : Obligations.ModeSearchTakesTheFirstMatchingRow := by
  refine ⟨fun T o d => ⟨fun m hm hleast => ?unary, encodeWith_unary_eq_none o⟩,
    fun T o d s => ⟨fun m hm hleast => ?binary, encodeWith_binary_eq_none o⟩,
    fun o k => ⟨encodeWith_unary_extra z70ref_valid o rfl, encodeWith_unary_extra z70ref_valid o rfl⟩⟩
  case unary =>
    rw [encodeWith_unary, encodeUnary, findUnaryMode_of_least hm hleast, Option.map_some, aluFirstByte]
  case binary =>
    rw [encodeWith_binary, encodeBinary, findBinaryMode_of_least hm hleast, Option.map_some, aluFirstByte]

/-! ## Z70-REF (R90-R94) -/

theorem toNat_opcodeField : ∀ b : Byte, (opcodeField b).toNat = b.toNat / 16 := by decide

theorem toNat_modeField : ∀ b : Byte, (modeField b).toNat = b.toNat % 16 := by decide

/-- A byte is put together from an operation code and its own mode field where its high digit is that code. -/
theorem eq_aluFirstByte {b : Byte} {code : Nibble} (h : b.toNat / 16 = code.toNat) :
    b = aluFirstByte code (modeField b) := by
  rw [← BitVec.eq_of_toNat_eq ((toNat_opcodeField b).trans h), aluFirstByte_fields]

theorem toNat_refOpc_bin : ∀ k < 6, ∀ o, allBinOps[k]? = some o → (refOpc (.bin o)).toNat = 1 + k := by decide

theorem toNat_refOpc_un : ∀ k < 5, ∀ o, allUnOps[k]? = some o → (refOpc (.un o)).toNat = 7 + k := by decide

theorem toNat_refJmpop : ∀ k < 6, ∀ c, allJumpOps[k]? = some c → (refJmpop c).toNat = 0xF0 + k := by decide

/-- The first bytes that no operation code, jump or `nop` takes (R90, R91, R94). -/
theorem decodeFirst_z70ref_unassigned : ∀ b : Byte,
    b.toNat / 16 = 0 ∨ 0xC ≤ b.toNat / 16 ∧ b.toNat / 16 ≤ 0xE ∨ 0xF6 ≤ b.toNat ∧ b.toNat ≤ 0xFE →
    decodeFirst z70ref b = .error .illegalOpcode := by
  decide

/-- The modes 4 to 15 of the unary operation codes 7 to 0xB are undefined (R93, R94). -/
theorem decodeFirst_z70ref_unary_undefined : ∀ b : Byte,
    7 ≤ b.toNat / 16 ∧ b.toNat / 16 ≤ 0xB ∧ 4 ≤ b.toNat % 16 → decodeFirst z70ref b = .error .illegalMode := by
  decide

/-- The binary rows of Z70-REF with an extra slot (R92). -/
theorem length_binary_z70ref (o : BinOp) : ∀ n < 16, ∀ row, refBmodeRows[n]? = some row →
    (Form.binary o row.1 row.2).length = if n ∈ [0x3, 0x4, 0x8, 0x9, 0xC, 0xF] then 2 else 1 := by
  cases o <;> decide

/-- Every mode of a binary operation code is a row of Z70-REF. -/
theorem decodeFirst_z70ref_binary {b : Byte} {o : BinOp} (h : b.toNat / 16 = (refOpc (.bin o)).toNat) :
    ∃ row, refBmodeRows[b.toNat % 16]? = some row ∧ decodeFirst z70ref b = .ok (.binary o row.1 row.2) := by
  obtain ⟨row, hrow⟩ : ∃ row, refBmodeRows[b.toNat % 16]? = some row :=
    ⟨_, List.getElem?_eq_getElem (Nat.mod_lt _ (by decide))⟩
  refine ⟨row, hrow, ?_⟩
  rw [← toNat_modeField] at hrow
  rw [← decodeFirst_binary z70ref_valid o hrow]
  exact congrArg _ (eq_aluFirstByte h)

theorem decodeFirst_z70ref_unary {b : Byte} {o : UnOp} (h : b.toNat / 16 = (refOpc (.un o)).toNat)
    (hmode : b.toNat % 16 < 4) :
    ∃ d, refUmodeRows[b.toNat % 16]? = some d ∧ decodeFirst z70ref b = .ok (.unary o d) := by
  obtain ⟨d, hrow⟩ : ∃ d, refUmodeRows[b.toNat % 16]? = some d := ⟨_, List.getElem?_eq_getElem hmode⟩
  refine ⟨d, hrow, ?_⟩
  rw [← toNat_modeField] at hrow
  rw [← decodeFirst_unary z70ref_valid o hrow]
  exact congrArg _ (eq_aluFirstByte h)

/-- Settles O3: the assigned bytes by the laws of tables that meet R7, the unassigned ones byte by byte. -/
theorem firstByteMapOfZ70Ref : Obligations.FirstByteMapOfZ70Ref := by
  refine ⟨z70ref_valid, fun b => ⟨decodeFirst_z70ref_unassigned b, ?binary, ?unary, ?jump, ?nop⟩⟩
  case binary =>
    intro k o hk hb
    have hlt : k < 6 := (List.getElem?_eq_some_iff.1 hk).1
    obtain ⟨row, hrow, hdecode⟩ := decodeFirst_z70ref_binary (hb.trans (toNat_refOpc_bin k hlt o hk).symm)
    exact ⟨row, hrow, hdecode, length_binary_z70ref o _ (Nat.mod_lt _ (by decide)) row hrow⟩
  case unary =>
    intro k o hk hb
    have hlt : k < 5 := (List.getElem?_eq_some_iff.1 hk).1
    refine ⟨fun hmode => decodeFirst_z70ref_unary_undefined b (by omega), fun hmode => ?_⟩
    obtain ⟨d, hrow, hdecode⟩ := decodeFirst_z70ref_unary (hb.trans (toNat_refOpc_un k hlt o hk).symm) hmode
    exact ⟨d, hrow, hdecode, length_of_decodeFirst z70ref_valid hdecode⟩
  case jump =>
    intro k c hk hb
    have hlt : k < 6 := (List.getElem?_eq_some_iff.1 hk).1
    obtain rfl : b = refJmpop c := BitVec.eq_of_toNat_eq (hb.trans (toNat_refJmpop k hlt c hk).symm)
    exact ⟨decodeFirst_jump z70ref_valid c, rfl⟩
  case nop =>
    intro hb
    obtain rfl : b = 0xFF := BitVec.eq_of_toNat_eq hb
    exact ⟨decodeFirst_nop z70ref, rfl⟩

/-- Settles O6: the decoder run on each word. -/
theorem writtenOutWordsDecode : Obligations.WrittenOutWordsDecode := by
  unfold Obligations.WrittenOutWordsDecode
  decide

end Sys2Proof.Proofs.Encoding
end

section
/-! SUPPORT. The step (R140-R142, R152-R154, R261-R263, R276): what the fetch of a whole instruction gives, the
invariant, what a step leaves alone and does not read, and the three ends of a run. -/

namespace Sys2Proof.Proofs.Stepping
open Sys2Proof.Machine Sys2Proof.Proofs.Encoding Sys2Proof.Proofs.Binary Sys2Proof.Proofs.Unary

/-! ## Fetching a whole instruction (R141, R142) -/

/-- An instruction whose bytes are all below PEND is fetched. -/
theorem fetchInstr_of_length_le {T : IsaTables} {s : State} {f : Form} (hd : decodeFirst T (s.mem.read s.pc) = .ok f)
    (hlen : s.pc + f.length ≤ s.pend.val) : ∃ x, fetchInstr T s = .ok (f.toInstr x) := by
  rw [length_eq_one_add] at hlen
  cases hs : f.hasSecondByte with
  | false => exact ⟨0, fetchInstr_short (by omega) hd hs⟩
  | true =>
    rw [hs, Bool.toNat_true] at hlen
    exact ⟨_, fetchInstr_long (by omega) hd hs⟩

/-- A fetched instruction is one whose bytes are all below PEND. -/
theorem form_of_fetchInstr_ok {T : IsaTables} {s : State} {i : Instr} (h : fetchInstr T s = .ok i) :
    ∃ f x, decodeFirst T (s.mem.read s.pc) = .ok f ∧ s.pc + f.length ≤ s.pend.val ∧ i = f.toInstr x := by
  rcases fetchInstr_cases T s with ⟨-, h'⟩ | ⟨-, c, -, h'⟩ | ⟨-, -, f, -, -, h'⟩ | ⟨hpc, f, hd, hs, h'⟩ |
    ⟨hpc, f, hd, hs, h'⟩
  case' inr.inr.inr.inl | inr.inr.inr.inr =>
    rw [h'] at h
    cases h
    refine ⟨f, _, hd, ?_, rfl⟩
    rw [length_eq_one_add, hs]
    exact hpc
  all_goals
    rw [h'] at h
    cases h

/-- The bytes of an instruction that stand at pc, below PEND, are fetched as that instruction. -/
theorem fetchInstr_of_isEncoding {T : IsaTables} {s : State} {e : List Byte} {i : Instr} (he : IsEncoding T e i)
    (hmem : s.mem.bytesAt s.pc e.length = e) (hlen : s.pc + e.length ≤ s.pend.val) : fetchInstr T s = .ok i := by
  obtain ⟨b, f, extra, rfl, hd, hextra, rfl⟩ := he
  cases hs : f.hasSecondByte with
  | false =>
    obtain rfl : extra = [] := by simpa [hs] using hextra
    obtain rfl : s.mem.read s.pc = b := by simpa [Memory.bytesAt] using hmem
    exact fetchInstr_short hlen hd hs
  | true =>
    obtain ⟨x, rfl⟩ : ∃ x, extra = [x] := by simpa [hs, List.length_eq_one_iff] using hextra
    obtain ⟨rfl, rfl⟩ : s.mem.read s.pc = b ∧ s.mem.read (s.pc + 1) = x := by
      simpa [Memory.bytesAt, List.range_succ] using hmem
    exact fetchInstr_long hlen hd hs

theorem take_bytesAt (m : Memory) (a : Nat) {k n : Nat} (h : k ≤ n) : (m.bytesAt a n).take k = m.bytesAt a k := by
  rw [Memory.bytesAt, Memory.bytesAt, ← List.map_take, List.take_range, Nat.min_eq_left h]

/-- Settles O7: the decoder and the fetch both take the one encoding that stands at pc. -/
theorem stepRunsTheDecodedInstruction : Obligations.StepRunsTheDecodedInstruction := by
  intro s n i rest hf hn hdecode
  obtain ⟨e, hbytes, he⟩ := isEncoding_of_decodeWith hdecode
  have hlen : e.length ≤ n := by
    have := congrArg List.length hbytes
    simp only [Memory.bytesAt, List.length_map, List.length_range, List.length_append] at this
    omega
  have hmem : s.mem.bytesAt s.pc e.length = e := by rw [← take_bytesAt _ _ hlen, hbytes, List.take_left]
  exact stepWith_ok hf (fetchInstr_of_isEncoding he hmem (by omega))

/-! ## The status and the faults (R140, R153, R154, R262, R263) -/

/-- Settles O8: a failed fetch and every meaning answer a next state. -/
theorem stepAnswersUnlessFaulted : Obligations.StepAnswersUnlessFaulted := by
  intro T s hs
  have hf : s.fault = none := by
    rw [Ne, State.status_faulted_iff] at hs
    exact Option.eq_none_iff_forall_ne_some.2 fun r hr => hs ⟨r, hr⟩
  cases hi : fetchInstr T s with
  | error e => exact ⟨_, stepWith_error hf hi⟩
  | ok i =>
    rw [stepWith_ok hf hi]
    exact exec_next i s

/-- Settles O9: the step looks at the fault record first, and the run at the status. -/
theorem faultedStatusIsSticky : Obligations.FaultedStatusIsSticky := by
  intro T s r hr
  refine ⟨stepWith_faulted hr, runForWith_of_not_running ?_⟩
  rw [(State.status_faulted_iff s).2 ⟨r, hr⟩]
  decide

theorem stepWith_past_end {T : IsaTables} {s : State} (hf : s.fault = none) (h : s.pend.val ≤ s.pc) :
    stepWith T s = .next (s.raise .fetchPastEnd (.address s.pc)) :=
  stepWith_error hf (fetchInstr_past_end h)

/-- Settles O10: Halted is pc at or beyond PEND, where the first fetch fails. -/
theorem haltedStepRaisesFetchPastEnd : Obligations.HaltedStepRaisesFetchPastEnd := by
  intro T s hs
  obtain ⟨hf, hpc⟩ := (State.status_halted_iff s).1 hs
  refine ⟨⟨_, stepWith_past_end hf hpc, State.raise_status .., rfl⟩, runForWith_of_not_running ?_⟩
  rw [hs]
  decide

/-- Settles O11: a fault is raised by the fetch or by a constant write, each from the state before the step. -/
theorem faultDiscardsEveryWrite : Obligations.FaultDiscardsEveryWrite := by
  intro T s t r h hr
  obtain ⟨hf, hcases⟩ := stepWith_next_cases h
  obtain ⟨cause, info, rfl⟩ : ∃ cause info, t = s.raise cause info := by
    rcases hcases with ⟨e, -, rfl⟩ | ⟨i, -, hi⟩
    · exact ⟨_, _, rfl⟩
    · exact ⟨_, _, (exec_fault hf hi hr).2⟩
  cases hr
  exact ⟨rfl, rfl, State.raise_status .., stepWith_faulted rfl⟩

theorem exec_binary_constant {o : BinOp} (ho : o ≠ .cmp) (k : Byte) (src : Operand) (s : State) :
    exec (Instr.binary o (.imm k) src) s = .next (s.raise .constantWrite (.firstByte (s.mem.read s.pc))) := by
  rw [exec_binary]
  exact commit_constant (aluBinary_wen ho ..)

theorem exec_unary_constant (o : UnOp) (k : Byte) (s : State) :
    exec (Instr.unary o (.imm k)) s = .next (s.raise .constantWrite (.firstByte (s.mem.read s.pc))) := by
  rw [exec_unary]
  exact commit_constant (aluUnary_wen ..)

/-- Settles O12: the fetch checks in this order, and only a fetched instruction can write a constant. -/
theorem firstApplicableFaultIsReported : Obligations.FirstApplicableFaultIsReported := by
  intro T s hf
  refine ⟨stepWith_past_end hf, fun hpc => ⟨fun hd => ?_, fun hd => ?_, fun f hd => ⟨fun hlen hpend => ?_, ?_⟩⟩⟩
  · exact stepWith_error hf (fetchInstr_illegal hpc hd)
  · exact stepWith_error hf (fetchInstr_illegal hpc hd)
  · have hs : f.hasSecondByte = true := by
      rw [length_eq_one_add] at hlen
      exact Bool.toNat_eq_one.1 (by omega)
    exact stepWith_error hf (fetchInstr_cut hpc hpend hd hs)
  · intro hlen hconst
    obtain ⟨x, hx⟩ := fetchInstr_of_length_le hd hlen
    rw [stepWith_ok hf hx]
    rcases hconst with ⟨o, sk, rfl, ho⟩ | ⟨o, rfl⟩
    · exact exec_binary_constant ho x _ s
    · exact exec_unary_constant o x s

/-! ## Destinations of decoded instructions (R7 items 4 and 5) -/

theorem dst_binary (o : BinOp) (d src : Operand) : (Instr.binary o d src).dst = some d := by
  cases o <;> rfl

theorem dst_unary (o : UnOp) (d : Operand) : (Instr.unary o d).dst = some d := by
  cases o <;> rfl

theorem dst_jump (c : JumpOp) (t : Byte) : (Instr.jump c t).dst = none := by
  cases c <;> rfl

/-- No decoded instruction has a constant as its destination. -/
theorem dst_kind_toInstr_ne_imm {T : IsaTables} (hT : T.Valid) {b : Byte} {f : Form} (hd : decodeFirst T b = .ok f)
    (x : Byte) : (f.toInstr x).dst.map Operand.kind ≠ some .imm := by
  rcases decodeFirst_cases hd with ⟨-, rfl⟩ | ⟨c, -, rfl⟩ | ⟨o, dk, sk, -, hrow, rfl⟩ | ⟨o, dk, -, hrow, rfl⟩
  · exact nofun
  · simp [Form.toInstr, dst_jump]
  · have hdk : dk ≠ .imm := fun h => hT.bmode_dst_not_imm _ sk (h ▸ hrow)
    simpa [Form.toInstr, dst_binary] using hdk
  · have hdk : dk ≠ .imm := fun h => by simpa [h, OperandKind.isExtra] using hT.umode_dst _ _ hrow
    simpa [Form.toInstr, dst_unary] using hdk

/-- Settles O13: the whole instruction is fetched, and its destination can be written. -/
theorem wholeInstructionBelowPendRaisesNoFault : Obligations.WholeInstructionBelowPendRaisesNoFault := by
  intro T s f hT hf hd hlen
  obtain ⟨x, hx⟩ := fetchInstr_of_length_le hd hlen
  obtain ⟨t, ht⟩ := exec_next (f.toInstr x) s
  refine ⟨t, (stepWith_ok hf hx).trans ht, Option.eq_none_iff_forall_ne_some.2 fun r hr => ?_⟩
  exact dst_kind_toInstr_ne_imm hT hd x (exec_fault hf ht hr).1

/-! ## The invariant (R24, R29, R32, R262) -/

/-- What a failed fetch reports describes the state it was taken in. -/
theorem describes_of_fetchInstr_error {T : IsaTables} {s : State} {e : FetchFault} (h : fetchInstr T s = .error e) :
    FaultRecord.Describes T s { cause := e.cause, pc0 := s.pc, info := e.info } := by
  rcases fetchInstr_cases T s with ⟨hpc, h'⟩ | ⟨hpc, c, hd, h'⟩ | ⟨hpc, hpend, f, -, -, h'⟩ | ⟨-, f, -, -, h'⟩ |
    ⟨-, f, -, -, h'⟩ <;> rw [h'] at h <;> cases h
  · exact ⟨rfl, s.pc, rfl, hpc, .inl rfl⟩
  · cases c with
    | illegalOpcode | illegalMode => exact ⟨rfl, hpc, rfl, hd⟩
  · exact ⟨rfl, s.pc + 1, rfl, hpend, .inr ⟨rfl, hpc⟩⟩

theorem inv_raise {T : IsaTables} {s : State} {e : FetchFault} (hs : s.Inv T) (h : fetchInstr T s = .error e) :
    (s.raise e.cause e.info).Inv T :=
  ⟨hs.mem_wf, hs.pc_le, hs.flags_reserved, fun r hr => by
    cases hr
    exact describes_of_fetchInstr_error h⟩

theorem inv_of_not_faulted {T : IsaTables} {t : State} (hmem : t.mem.wf) (hpc : t.pc ≤ memorySize)
    (hflags : flagReserved t.flags = 0) (hf : t.fault = none) : t.Inv T :=
  ⟨hmem, hpc, hflags, fun r hr => by rw [hf] at hr; cases hr⟩

/-- Settles O15: the empty memory is canonical, and no record stands. -/
theorem resetMeetsTheInvariant : Obligations.ResetMeetsTheInvariant :=
  fun _ => inv_of_not_faulted Memory.wf_nil (Nat.zero_le _) rfl rfl

theorem inv_setPc {T : IsaTables} {s : State} {p : Nat} (hs : s.Inv T) (hf : s.fault = none) (hp : p ≤ memorySize) :
    (s.setPc p).Inv T :=
  inv_of_not_faulted hs.mem_wf hp hs.flags_reserved hf

/-- A write to an operand leaves PEND, the fault record and the label table alone. -/
theorem writeOperand_keeps {s u : State} {v : Byte} {o : Operand} (h : writeOperand s v o = some u) :
    u.pend = s.pend ∧ u.fault = s.fault ∧ u.labels = s.labels := by
  unfold writeOperand at h
  cases hl : locate s o with
  | reg r => rw [hl] at h; cases h; simp
  | mem a => rw [hl] at h; cases h; simp
  | literal k => rw [hl] at h; cases h

theorem inv_commit {T : IsaTables} {size : Nat} {d : Operand} {out : AluOut} {s t : State} (hs : s.Inv T)
    (hf : s.fault = none) (hd : d.kind ≠ .imm) (hpc : s.pc + size ≤ memorySize)
    (hout : flagReserved out.flags = flagReserved s.flags) (h : commit size d out s = .next t) : t.Inv T := by
  have hreserved := hout.trans hs.flags_reserved
  rcases commit_cases h with ⟨u, hu, rfl⟩ | ⟨-, hk, -⟩ | ⟨-, rfl⟩
  · obtain ⟨-, hfault, -⟩ := writeOperand_keeps hu
    have hwf : u.mem.wf := writeOperand_wf hs.mem_wf hu
    exact inv_of_not_faulted hwf hpc hreserved (hfault.trans hf)
  · exact absurd hk hd
  · exact inv_of_not_faulted hs.mem_wf hpc hreserved hf

theorem exec_jump (c : JumpOp) (target : Byte) (s : State) : exec (Instr.jump c target) s = branch c target s := by
  cases c <;> rfl

theorem flagReserved_aluBinary (o : BinOp) (x y f : Byte) :
    flagReserved (aluBinary o x y f).flags = flagReserved f := by
  cases o with
  | mov => rfl
  | add | sub | cmp | and | or => exact flagReserved_hook ..

theorem flagReserved_aluUnary (o : UnOp) (x f : Byte) : flagReserved (aluUnary o x f).flags = flagReserved f := by
  cases o with
  | not => rfl
  | inc | dec | shr | shl => exact flagReserved_hook ..

theorem operandBytes_resolve (x : Byte) (k : OperandKind) : operandBytes (k.resolve x) = k.isExtra.toNat := by
  cases k <;> rfl

/-- A row's instruction has as many bytes as its form (R86, R117). -/
theorem binarySize_resolve {o : BinOp} {dk sk : OperandKind} (hone : (dk.isExtra && sk.isExtra) = false) (x : Byte) :
    binarySize (dk.resolve x) (sk.resolve x) = (Form.binary o dk sk).length := by
  rw [binarySize, operandBytes_resolve, operandBytes_resolve, length_eq_one_add, Form.hasSecondByte]
  revert hone
  cases dk.isExtra <;> cases sk.isExtra <;> decide

theorem unarySize_resolve (o : UnOp) (dk : OperandKind) (x : Byte) :
    unarySize (dk.resolve x) = (Form.unary o dk).length := by
  rw [unarySize, operandBytes_resolve, length_eq_one_add, Form.hasSecondByte]

/-- The meaning of an instruction whose bytes are all below PEND keeps the invariant. -/
theorem inv_exec_toInstr {T : IsaTables} (hT : T.Valid) {s t : State} {f : Form} {x : Byte} (hs : s.Inv T)
    (hf : s.fault = none) (hd : decodeFirst T (s.mem.read s.pc) = .ok f) (hlen : s.pc + f.length ≤ s.pend.val)
    (h : exec (f.toInstr x) s = .next t) : t.Inv T := by
  have hdst := dst_kind_toInstr_ne_imm hT hd x
  have hpc : s.pc + f.length ≤ memorySize := hlen.trans (Nat.le_of_lt_succ s.pend.isLt)
  rcases decodeFirst_cases hd with ⟨-, rfl⟩ | ⟨c, -, rfl⟩ | ⟨o, dk, sk, -, hrow, rfl⟩ | ⟨o, dk, -, hrow, rfl⟩
  · cases h
    exact inv_setPc hs hf hpc
  · rw [Form.toInstr, exec_jump] at h
    cases h
    refine inv_setPc hs hf ?_
    split
    · exact x.isLt.le
    · exact hpc
  · rw [Form.toInstr, dst_binary] at hdst
    rw [Form.toInstr, exec_binary] at h
    rw [← binarySize_resolve (hT.bmode_one_extra _ _ _ hrow) x] at hpc
    exact inv_commit hs hf (by simpa using hdst) hpc (flagReserved_aluBinary ..) h
  · rw [Form.toInstr, dst_unary] at hdst
    rw [Form.toInstr, exec_unary] at h
    rw [← unarySize_resolve o dk x] at hpc
    exact inv_commit hs hf (by simpa using hdst) hpc (flagReserved_aluUnary ..) h

/-- Settles O14: a failed fetch leaves a record that describes it, and a fetched instruction lies below PEND. -/
theorem everyStepKeepsTheInvariant : Obligations.EveryStepKeepsTheInvariant := by
  intro T s t hT hs h
  obtain ⟨hf, ⟨e, he, rfl⟩ | ⟨i, hi, hexec⟩⟩ := stepWith_next_cases h
  · exact inv_raise hs he
  · obtain ⟨f, x, hd, hlen, rfl⟩ := form_of_fetchInstr_ok hi
    exact inv_exec_toInstr hT hs hf hd hlen hexec

/-! ## What a step leaves alone (R27, R33) -/

theorem commit_keeps {size : Nat} {d : Operand} {out : AluOut} {s t : State} (h : commit size d out s = .next t) :
    t.pend = s.pend ∧ t.labels = s.labels := by
  rcases commit_cases h with ⟨u, hu, rfl⟩ | ⟨-, -, rfl⟩ | ⟨-, rfl⟩
  · obtain ⟨hpend, -, hlabels⟩ := writeOperand_keeps hu
    exact ⟨hpend, hlabels⟩
  · exact ⟨rfl, rfl⟩
  · exact ⟨rfl, rfl⟩

theorem exec_keeps {i : Instr} {s t : State} (h : exec i s = .next t) : t.pend = s.pend ∧ t.labels = s.labels := by
  rcases exec_cases i s with ⟨size, d, out, -, -, h', -⟩ | ⟨-, b, h'⟩ | ⟨-, h'⟩ | ⟨-, h'⟩ <;> rw [h'] at h
  · exact commit_keeps h
  all_goals
    cases h
    exact ⟨rfl, rfl⟩

/-- Settles O16: neither taking a fault nor a meaning writes them. -/
theorem stepKeepsPendAndLabels : Obligations.StepKeepsPendAndLabels := by
  intro T s t h
  obtain ⟨-, ⟨e, -, rfl⟩ | ⟨i, -, hexec⟩⟩ := stepWith_next_cases h
  · exact ⟨rfl, rfl⟩
  · exact exec_keeps hexec

/-! ## What an instruction does not read (R26, R27, R33) -/

/-- The state with another pc, PEND and label table: the parts that no instruction reads as data. -/
def relocate (s : State) (q : Nat) (p : Fin 257) (l : LabelTable) : State := { s with pc := q, pend := p, labels := l }

/-- The same registers, FLAGS and memory, and a fault record in both or in none. -/
def SameData (s t : State) : Prop :=
  s.regA = t.regA ∧ s.regB = t.regB ∧ s.regI = t.regI ∧ s.flags = t.flags ∧ s.mem = t.mem ∧
    (s.fault = none ↔ t.fault = none)

section Relocate
variable (q : Nat) (p : Fin 257) (l : LabelTable)

theorem sameData_relocate (s : State) : SameData (relocate s q p l) s := ⟨rfl, rfl, rfl, rfl, rfl, .rfl⟩

theorem readOperand_relocate (s : State) (o : Operand) : readOperand (relocate s q p l) o = readOperand s o := by
  cases o with
  | reg r => cases r <;> rfl
  | indI | imm | dir => rfl

theorem writeOperand_relocate (s : State) (v : Byte) (o : Operand) :
    writeOperand (relocate s q p l) v o = (writeOperand s v o).map fun u => relocate u q p l := by
  cases o with
  | reg r => cases r <;> rfl
  | indI | imm | dir => rfl

/-- Elsewhere, an ALU result is committed the same, and at the same pc nothing else differs either. -/
theorem commit_relocate {size : Nat} {d : Operand} {out : AluOut} {s t : State} (h : commit size d out s = .next t) :
    ∃ t', commit size d out (relocate s q p l) = .next t' ∧ SameData t' t ∧
      (q = s.pc → t' = relocate t t.pc p l) := by
  unfold commit at *
  rw [writeOperand_relocate]
  cases hw : out.wen with
  | false =>
    rw [hw] at h
    cases h
    exact ⟨_, rfl, sameData_relocate (q + size) p l _, fun hq => by subst hq; rfl⟩
  | true =>
    rw [hw] at h
    cases hu : writeOperand s out.result d with
    | none =>
      rw [hu] at h
      cases h
      exact ⟨_, rfl, ⟨rfl, rfl, rfl, rfl, rfl, by simp⟩, fun hq => by subst hq; rfl⟩
    | some u =>
      rw [hu] at h
      cases h
      exact ⟨_, rfl, sameData_relocate (q + size) p l _, fun hq => by subst hq; rfl⟩

/-- Elsewhere, every instruction has the same effect on the data, and at the same pc nothing else differs either. -/
theorem exec_relocate {i : Instr} {s t : State} (h : exec i s = .next t) :
    ∃ t', exec i (relocate s q p l) = .next t' ∧ SameData t' t ∧ (q = s.pc → t' = relocate t t.pc p l) := by
  rcases i.cases_by_form with ⟨o, d, src, rfl⟩ | ⟨o, d, rfl⟩ | ⟨c, target, rfl⟩ | rfl
  · rw [exec_binary] at h ⊢
    rw [readOperand_relocate, readOperand_relocate]
    exact commit_relocate q p l h
  · rw [exec_unary] at h ⊢
    rw [readOperand_relocate]
    exact commit_relocate q p l h
  · rw [exec_jump] at h ⊢
    cases h
    exact ⟨_, rfl, ⟨rfl, rfl, rfl, rfl, rfl, .rfl⟩, fun hq => by subst hq; rfl⟩
  · cases h
    exact ⟨_, rfl, ⟨rfl, rfl, rfl, rfl, rfl, .rfl⟩, fun hq => by subst hq; rfl⟩

end Relocate

/-- At the same pc, an instruction runs the same with another PEND and another label table. -/
theorem exec_relocate_here {i : Instr} {s t : State} (p : Fin 257) (l : LabelTable) (h : exec i s = .next t) :
    exec i (relocate s s.pc p l) = .next (relocate t t.pc p l) := by
  obtain ⟨t', ht', -, hrelocate⟩ := exec_relocate s.pc p l h
  rw [ht', hrelocate rfl]

/-- Settles O17: the label table that the instruction leaves is the one it found. -/
theorem noInstructionReadsPend : Obligations.NoInstructionReadsPend := by
  intro i s t p h
  obtain ⟨-, hlabels⟩ := exec_keeps h
  calc exec i { s with pend := p }
      = .next (relocate t t.pc p s.labels) := exec_relocate_here p s.labels h
    _ = .next (relocate t t.pc p t.labels) := by rw [hlabels]

/-- Settles O18: the fetch reads pc, PEND and memory only, and a meaning does not read the table either. -/
theorem noStepReadsTheLabels : Obligations.NoStepReadsTheLabels := by
  intro T s t l h
  have hfetch : fetchInstr T { s with labels := l } = fetchInstr T s := rfl
  obtain ⟨hf, ⟨e, he, rfl⟩ | ⟨i, hi, hexec⟩⟩ := stepWith_next_cases h
  · exact stepWith_error hf (hfetch.trans he)
  · obtain ⟨hpend, -⟩ := exec_keeps hexec
    calc stepWith T { s with labels := l }
        = exec i { s with labels := l } := stepWith_ok hf (hfetch.trans hi)
      _ = .next (relocate t t.pc s.pend l) := exec_relocate_here s.pend l hexec
      _ = .next (relocate t t.pc t.pend l) := by rw [hpend]

/-- Settles O19: pc enters a meaning only in the pc it leaves and in the fault record. -/
theorem noInstructionReadsPcAsData : Obligations.NoInstructionReadsPcAsData := by
  intro i s t q h
  obtain ⟨t', ht', hdata, -⟩ := exec_relocate q s.pend s.labels h
  exact ⟨t', ht', hdata⟩

/-! ## The ends of a run (R276) -/

/-- Once the status is not Running it stays as it is. -/
theorem status_runForWith_of_le {T : IsaTables} {s : State} {n m : Nat} (hnm : n ≤ m)
    (hn : (runForWith T n s).status ≠ .running) : (runForWith T m s).status = (runForWith T n s).status := by
  obtain ⟨k, rfl⟩ := Nat.exists_eq_add_of_le hnm
  rw [runForWith_add, runForWith_of_not_running hn]

theorem not_runFails_of_runHalts {T : IsaTables} {s : State} (h : RunHalts T s) : ¬ RunFails T s := by
  rintro ⟨m, hm⟩
  obtain ⟨n, hn⟩ := h
  have hn' : (runForWith T (max n m) s).status = .halted :=
    (status_runForWith_of_le (le_max_left n m) (by rw [hn]; decide)).trans hn
  have hm' : (runForWith T (max n m) s).status = .faulted :=
    (status_runForWith_of_le (le_max_right n m) (by rw [hm]; decide)).trans hm
  rw [hn'] at hm'
  cases hm'

/-- A run hangs exactly where it neither halts nor fails: there are three statuses (R28). -/
theorem runHangs_iff {T : IsaTables} {s : State} : RunHangs T s ↔ ¬ RunHalts T s ∧ ¬ RunFails T s := by
  constructor
  · refine fun h => ⟨fun ⟨n, hn⟩ => ?_, fun ⟨n, hn⟩ => ?_⟩ <;> rw [h n] at hn <;> cases hn
  · rintro ⟨hhalts, hfails⟩ n
    cases hn : (runForWith T n s).status with
    | running => rfl
    | halted => exact absurd ⟨n, hn⟩ hhalts
    | faulted => exact absurd ⟨n, hn⟩ hfails

/-- Settles O20: an ended run keeps its status, so it does not end twice. -/
theorem runHasExactlyOneEnd : Obligations.RunHasExactlyOneEnd := by
  intro T s
  have hexclusive := not_runFails_of_runHalts (T := T) (s := s)
  rw [runHangs_iff]
  tauto

end Sys2Proof.Proofs.Stepping
end

section
/-! SUPPORT. Memory as data and as code (R22, R32, R62): the canonical form is unique for its bytes, and a store is seen
by the next fetch. -/

namespace Sys2Proof.Proofs.MemoryAccess
open Sys2Proof.Machine Sys2Proof.Proofs.Binary

/-! ## The canonical form (R32) -/

/-- A canonical memory lists exactly the bytes that do not read as unlisted. -/
theorem mem_iff_read {m : Memory} (hm : m.wf) (a : Nat) (v : Byte) :
    (a, v) ∈ m ↔ m.read a = v ∧ v ≠ unlistedByte := by
  induction m with
  | nil => exact ⟨nofun, fun ⟨hread, hv⟩ => absurd hread.symm hv⟩
  | cons c m ih =>
    obtain ⟨k, w⟩ := c
    obtain ⟨hlt, ⟨-, hw⟩, hm'⟩ := Memory.wf_cons.1 hm
    by_cases hk : k = a
    · subst hk
      have hnot : (k, v) ∉ m := fun h => Nat.lt_irrefl k (hlt _ h)
      simp only [Memory.read, if_true, List.mem_cons, Prod.mk.injEq, true_and, hnot, or_false]
      exact ⟨fun h => ⟨h.symm, h ▸ hw⟩, fun ⟨h, _⟩ => h.symm⟩
    · simp [Memory.read, hk, Ne.symm hk, ih hm']

/-- No canonical memory lists an address beyond the address space. -/
theorem read_eq_unlisted_of_ge {m : Memory} (hm : m.wf) {a : Nat} (ha : memorySize ≤ a) : m.read a = unlistedByte := by
  by_contra hread
  exact Nat.not_lt.2 ha (hm.2 _ ((mem_iff_read hm a _).2 ⟨rfl, hread⟩)).1

/-- Settles O21: the two memories list the same pairs, each in rising order of addresses. -/
theorem canonicalMemoriesReadingAlikeAreEqual : Obligations.CanonicalMemoriesReadingAlikeAreEqual := by
  intro m m' hm hm' halike
  have hread (a : Nat) : m.read a = m'.read a := by
    rcases Nat.lt_or_ge a memorySize with ha | ha
    · exact halike a ha
    · rw [read_eq_unlisted_of_ge hm ha, read_eq_unlisted_of_ge hm' ha]
  have hirrefl : Std.Irrefl fun c c' : Host.Cell => c.1 < c'.1 := ⟨fun c => Nat.lt_irrefl c.1⟩
  have hantisymm : Std.Antisymm fun c c' : Host.Cell => c.1 < c'.1 :=
    ⟨fun _ _ h h' => absurd h (Nat.lt_asymm h')⟩
  refine hm.1.eq_of_mem_iff hm'.1 fun ⟨a, v⟩ => ?_
  rw [mem_iff_read hm, mem_iff_read hm', hread]

/-! ## Self-modification and `[I]` (R22, R62) -/

/-- Where the byte at an address and PEND are as before, so is the fetch. -/
theorem fetchByte_congr {s t : State} {a : Nat} (hpend : t.pend = s.pend) (hread : t.mem.read a = s.mem.read a) :
    fetchByte t a = fetchByte s a := by
  rw [fetchByte, fetchByte, hpend, hread]

/-- Settles O22: the store changes one byte of memory and no PEND, and those are all that a fetch reads. -/
theorem storedByteIsWhatTheNextFetchReads : Obligations.StoredByteIsWhatTheNextFetchReads := by
  intro s a hs
  obtain ⟨t, ht, hresult, -, -, -, hother, hpend, -, -⟩ :=
    exec_binary_writes (o := .mov) (d := .dir a) (by decide) (.reg .A) nofun hs
  refine ⟨t, ht, fun ha => ?_, fun ha => ?_, fun b hb => ?_⟩
  · rw [← hpend] at ha
    rw [fetchByte_of_lt ha]
    exact congrArg _ hresult
  · rw [← hpend] at ha
    exact fetchByte_of_ge ha
  · exact fetchByte_congr hpend (hother b fun h => by cases h; exact hb rfl)

/-- Settles O23: the write of I comes after the read of `[I]`, and before the next instruction's. -/
theorem indirectAddressIsIAtStepStart : Obligations.IndirectAddressIsIAtStepStart :=
  fun _ _ => ⟨⟨_, rfl, rfl⟩, ⟨_, rfl, rfl, rfl⟩⟩

end Sys2Proof.Proofs.MemoryAccess
end

section
/-! SUPPORT. The rest of the ALU (R145, R149, R177, R205): overflow by bits, `add` undone by `sub`, `shl`, and constant
destinations. -/

namespace Sys2Proof.Proofs.Arithmetic
open Sys2Proof.Machine Sys2Proof.Proofs.Binary Sys2Proof.Proofs.Unary Sys2Proof.Proofs.Stepping

/-! ## Signed overflow (R149) -/

section Overflow
variable (d s : Byte)

theorem addOv_iff : addOv d s = true ↔ ¬ (-128 ≤ d.toInt + s.toInt ∧ d.toInt + s.toInt ≤ 127) := by
  rw [addOv_eq_decide_lt_or_lt, decide_eq_true_iff]
  omega

theorem subOv_iff : subOv d s = true ↔ ¬ (-128 ≤ d.toInt - s.toInt ∧ d.toInt - s.toInt ≤ 127) := by
  rw [subOv_eq_decide_lt_or_lt, decide_eq_true_iff]
  omega

/-- A sum overflows where its operands have one sign and it has the other. -/
theorem addOv_eq_signs : addOv d s = (d.getLsbD 7 == s.getLsbD 7 && (d + s).getLsbD 7 != d.getLsbD 7) := by
  have hd := d.isLt
  have hs := s.isLt
  rw [addOv_eq_decide_lt_or_lt, getLsbD_seven, getLsbD_seven, getLsbD_seven, BitVec.toNat_add,
    BitVec.toInt_eq_toNat_cond, BitVec.toInt_eq_toNat_cond, Bool.eq_iff_iff]
  simp only [decide_eq_true_iff, Bool.and_eq_true, beq_iff_eq, bne_iff_ne, ne_eq, decide_eq_decide]
  omega

/-- A difference overflows where its operands' signs differ and it has not the sign of the first. -/
theorem subOv_eq_signs : subOv d s = (d.getLsbD 7 != s.getLsbD 7 && (d - s).getLsbD 7 != d.getLsbD 7) := by
  have hd := d.isLt
  have hs := s.isLt
  rw [subOv_eq_decide_lt_or_lt, getLsbD_seven, getLsbD_seven, getLsbD_seven, BitVec.toNat_sub,
    BitVec.toInt_eq_toNat_cond, BitVec.toInt_eq_toNat_cond, Bool.eq_iff_iff]
  simp only [decide_eq_true_iff, Bool.and_eq_true, bne_iff_ne, ne_eq, decide_eq_decide]
  omega

end Overflow

/-- Settles O24: the ranges by the two readings of a signed byte, the signs by arithmetic on the naturals. -/
theorem signedOverflowByRangeAndByBits : Obligations.SignedOverflowByRangeAndByBits :=
  fun d s => ⟨addOv_iff d s, subOv_iff d s, addOv_eq_signs d s, subOv_eq_signs d s⟩

/-! ## `add` undone by `sub` (R177) -/

/-- A binary instruction that writes a register changes no other register. -/
theorem exec_binary_reg {o : BinOp} (ho : o ≠ .cmp) (r : Reg) (src : Operand) (s : State) :
    ∃ t, exec (Instr.binary o (.reg r) src) s = .next t ∧ ∀ x, t.reg x =
      if r = x then (aluBinary o (s.reg r) (readOperand s src) s.flags).result else s.reg x := by
  rw [exec_binary, commit, if_pos (aluBinary_wen ho ..)]
  exact ⟨_, rfl, fun x => by rw [State.setPc_reg, State.setFlags_reg, State.setReg_reg]; rfl⟩

theorem aluAdd_result (d s f : Byte) : (aluAdd d s f).result = d + s := (BitVec.add_def ..).symm

/-- Settles O33: the source register is not written, so `sub` takes off what `add` put on. -/
theorem addThenSubRestoresTheDestination : Obligations.AddThenSubRestoresTheDestination := by
  intro r q s hrq
  obtain ⟨t, ht, hadd⟩ := exec_binary_reg (o := .add) (by decide) r (.reg q) s
  obtain ⟨u, hu, hsub⟩ := exec_binary_reg (o := .sub) (by decide) r (.reg q) t
  refine ⟨t, u, ht, hu, fun x => ?_⟩
  rw [hsub]
  split
  case isTrue hx =>
    subst hx
    have hsum : t.reg r = s.reg r + s.reg q := by
      rw [hadd, if_pos rfl]
      exact aluAdd_result ..
    calc t.reg r - t.reg q
        = s.reg r + s.reg q - s.reg q := by rw [hsum, hadd, if_neg hrq]
      _ = s.reg r := BitVec.add_sub_cancel ..
  case isFalse hx => rw [hadd, if_neg hx]

/-! ## `shl` (R205) -/

section Shl
variable (d f : Byte)

theorem aluShl_result_toNat : (aluShl d f).result.toNat = d.toNat * 2 % 256 := by
  rw [aluShl, BitVec.toNat_shiftLeft, Nat.shiftLeft_eq]

theorem flagCF_aluShl : flagCF (aluShl d f).flags = decide (128 ≤ d.toNat) :=
  (flagCF_hook ..).trans (getLsbD_seven d)

/-- OF compares the carry with the sign of the result (C1). -/
theorem flagOF_aluShl : flagOF (aluShl d f).flags =
    (flagCF (aluShl d f).flags ^^ decide (128 ≤ (aluShl d f).result.toNat)) := by
  rw [flagCF_aluShl, ← getLsbD_seven, ← getLsbD_seven]
  exact flagOF_hook ..

/-- The sign of the result is the old bit 6, so OF compares the two highest bits. -/
theorem flagOF_aluShl_eq_bits : flagOF (aluShl d f).flags = (d.getLsbD 7 ^^ d.getLsbD 6) := by
  have hsign : (aluShl d f).result.getLsbD 7 = d.getLsbD 6 := by simp [aluShl]
  rw [flagOF_aluShl, flagCF_aluShl, ← getLsbD_seven, ← getLsbD_seven, hsign]

theorem resultFlags_aluShl : ResultFlags f (aluShl d f).flags (aluShl d f).result :=
  resultFlags_hook ..

end Shl

/-- Settles O38: CF is the bit shifted out, and OF that carry xor the new sign. -/
theorem shlShiftsLeftByOne : Obligations.ShlShiftsLeftByOne := by
  refine ⟨unaryCode_unary .shl, fun d s hd hs => ?_⟩
  obtain ⟨t, ht, hresult, hflags, hpc, hframe⟩ := exec_unary_writes .shl hd hs
  refine ⟨t, ht, ?_⟩
  rw [hresult, hflags]
  exact ⟨aluShl_result_toNat .., flagCF_aluShl .., flagOF_aluShl .., flagOF_aluShl_eq_bits .., resultFlags_aluShl ..,
    hpc, hframe⟩

/-! ## Constant destinations (R145) -/

/-- Settles O39: only an ALU instruction has a destination, and only `cmp` does not write it. -/
theorem constantDestinationRaisesConstantWrite : Obligations.ConstantDestinationRaisesConstantWrite := by
  intro k i s hdst hcmp
  refine ⟨_, ?_, rfl⟩
  rcases i.cases_by_form with ⟨o, d, src, rfl⟩ | ⟨o, d, rfl⟩ | ⟨c, target, rfl⟩ | rfl
  · obtain rfl : d = .imm k := by simpa [dst_binary] using hdst
    have ho : o ≠ .cmp := fun h => hcmp src (by rw [h]; rfl)
    exact exec_binary_constant ho k src s
  · obtain rfl : d = .imm k := by simpa [dst_unary] using hdst
    exact exec_unary_constant o k s
  · simp [dst_jump] at hdst
  · cases hdst

end Sys2Proof.Proofs.Arithmetic
end

section
/-! SUPPORT. The jumps and `nop` (R230-R238): one lemma for the step at any jump byte, and each jump its condition. -/

namespace Sys2Proof.Proofs.Control
open Sys2Proof.Machine Sys2Proof.Proofs.Stepping

/-! ## The step at a jump byte (R141, R230) -/

/-- A jump whose two bytes are below PEND branches to its second byte. -/
theorem stepWith_jump {T : IsaTables} {s : State} {c : JumpOp} (hf : s.fault = none)
    (hd : decodeFirst T (s.mem.read s.pc) = .ok (.jump c)) (hpc : s.pc + 1 < s.pend.val) :
    stepWith T s = branch c (s.mem.read (s.pc + 1)) s := by
  rw [stepWith_ok hf (fetchInstr_long hpc hd rfl)]
  exact exec_jump ..

/-- What a step does at the byte of any of the six jumps. -/
theorem jumpStep (c : JumpOp) : JumpStep c (refJmpop c) (taken c) := by
  refine ⟨rfl, fun T s hT hf hbyte => ?_⟩
  have hd : decodeFirst T (s.mem.read s.pc) = .ok (.jump c) := hbyte ▸ decodeFirst_jump hT c
  refine ⟨stepWith_past_end hf, fun hpc => ?_, stepWith_jump hf hd⟩
  exact stepWith_error hf (fetchInstr_cut (by omega) hpc.ge hd rfl)

/-! ## The six jumps (R232-R237) -/

/-- A step that leads back to its own Running state is a run without end. -/
theorem runHangs_of_stepWith_self {T : IsaTables} {s : State} (hs : s.status = .running)
    (h : stepWith T s = .next s) : RunHangs T s := by
  intro n
  have hrun : runForWith T n s = s := by
    induction n with
    | zero => rfl
    | succ n ih => rw [runForWith, runStepWith_of_next hs h, ih]
  rw [hrun, hs]

/-- Settles O40: the step at a `jmp` to itself leads back to the same state. -/
theorem jmpLoadsItsTarget : Obligations.JmpLoadsItsTarget := by
  refine ⟨fun T => encodeWith_jump T .jmp, fun _ _ => rfl, jumpStep .jmp, fun T s hT hf hpc hbyte htarget => ?_⟩
  have hstep := stepWith_jump hf (hbyte ▸ decodeFirst_jump hT .jmp) hpc
  refine runHangs_of_stepWith_self ((State.status_running_iff s).2 ⟨hf, Nat.lt_of_succ_lt hpc⟩) (hstep.trans ?_)
  rw [branch, taken, if_pos rfl, htarget]
  rfl

/-- Settles O41: the condition of `jz` is bit 5 of FLAGS. -/
theorem jzJumpsOnZero : Obligations.JzJumpsOnZero :=
  ⟨fun T => encodeWith_jump T .jz, fun _ _ => rfl, jumpStep .jz⟩

/-- Settles O42: the condition of `js` is bit 3 of FLAGS. -/
theorem jsJumpsOnSign : Obligations.JsJumpsOnSign :=
  ⟨fun T => encodeWith_jump T .js, fun _ _ => rfl, jumpStep .js⟩

/-- Settles O43: the condition of `jc` is bit 6 of FLAGS. -/
theorem jcJumpsOnCarry : Obligations.JcJumpsOnCarry :=
  ⟨fun T => encodeWith_jump T .jc, fun _ _ => rfl, jumpStep .jc⟩

/-- Settles O44: the condition of `jo` is bit 7 of FLAGS. -/
theorem joJumpsOnOverflow : Obligations.JoJumpsOnOverflow :=
  ⟨fun T => encodeWith_jump T .jo, fun _ _ => rfl, jumpStep .jo⟩

/-- Settles O45: the condition of `jp` is bit 4 of FLAGS. -/
theorem jpJumpsOnEvenParity : Obligations.JpJumpsOnEvenParity :=
  ⟨fun T => encodeWith_jump T .jp, fun _ _ => rfl, jumpStep .jp⟩

/-! ## Halting by a jump (R231) -/

theorem status_of_not_faulted {s : State} (hf : s.fault = none) :
    s.status = if s.pend.val ≤ s.pc then .halted else .running := by
  rw [State.status, hf]
  rfl

/-- Settles O47: a jump leaves PEND and the fault record alone, so the new pc alone decides the status. -/
theorem jumpTargetDecidesHalting : Obligations.JumpTargetDecidesHalting := by
  intro T s c hf hpc hd
  refine ⟨_, stepWith_jump hf hd hpc, fun htaken => ?_, fun htaken => ?_⟩ <;>
    rw [htaken, status_of_not_faulted (by exact hf)]
  · exact ⟨rfl, rfl⟩
  · refine ⟨rfl, ?_⟩
    have hend : s.pend.val ≤ s.pc + 2 ↔ s.pc + 2 = s.pend.val := by omega
    exact if_congr hend rfl rfl

/-! ## `nop` (R238) -/

theorem parseItem_nop_arguments {args : List Text} (h : args ≠ []) : parseItem nopText args = .error .nopArguments := by
  cases args with
  | nil => exact absurd rfl h
  | cons arg args => rfl

/-- Settles O46: `nop` is one byte, so only its own fetch can fail. -/
theorem nopOnlyAdvancesPc : Obligations.NopOnlyAdvancesPc := by
  refine ⟨fun _ => rfl, rfl, fun _ => parseItem_nop_arguments, fun _ => rfl, fun T s hf hbyte => ?_⟩
  split
  case isTrue hpc => exact stepWith_ok hf (fetchInstr_short hpc (hbyte ▸ decodeFirst_nop T) rfl)
  case isFalse hpc => exact stepWith_past_end hf (Nat.not_lt.1 hpc)

end Sys2Proof.Proofs.Control
end

section
/-! SUPPORT. Construction and the snapshot (R275, R290-R293). -/

namespace Sys2Proof.Proofs.Construction
open Sys2Proof.Machine Sys2Proof.Proofs.Stepping Sys2Proof.Proofs.Control

/-! ## Construction (R292, R293) -/

/-- An image of 256 bytes with PEND in 0..256 constructs a core (R292). -/
theorem newCpu_eq_next {image : List Byte} (labels : LabelTable) {p : Nat} (himage : image.length = memorySize)
    (hp : p < 257) : newCpu image labels p =
      .next { State.reset with mem := Memory.ofImage image, pend := ⟨p, hp⟩, labels := labels } := by
  rw [newCpu, if_neg (not_not_intro himage), dif_pos hp]
  rfl

/-- Settles O48: every field of the constructed state is read off. -/
theorem newCpuGivesTheResetState : Obligations.NewCpuGivesTheResetState := by
  intro image labels p himage hp
  refine ⟨_, newCpu_eq_next labels himage (Nat.lt_succ_of_le hp), Memory.toImage_ofImage himage, rfl, ?registers, rfl,
    rfl, rfl, rfl, ?status⟩
  case registers =>
    intro r
    cases r <;> rfl
  case status =>
    rw [status_of_not_faulted rfl]
    rcases Nat.eq_zero_or_pos p with rfl | hpos
    · rfl
    · rw [if_pos hpos]
      exact if_neg (Nat.not_le.2 hpos)

/-- Settles O49: the image's size is checked, then PEND. -/
theorem badLaunchIsRefused : Obligations.BadLaunchIsRefused := by
  intro image labels p hbad
  by_cases himage : image.length = memorySize
  · have hp : ¬ p < 257 := by
      rcases hbad with h | h
      · exact absurd himage h
      · omega
    exact ⟨_, by rw [newCpu, if_neg (not_not_intro himage), dif_neg hp]⟩
  · exact ⟨_, by rw [newCpu, if_pos himage]⟩

theorem ofImage_wf {image : List Byte} (h : image.length = memorySize) : (Memory.ofImage image).wf :=
  Memory.ofBytesAt_wf (by rw [h, Nat.zero_add])

/-- Settles O50: the image's memory is canonical, and the other fields are the reset values. -/
theorem newCpuMeetsTheInvariant : Obligations.NewCpuMeetsTheInvariant := by
  intro T image labels p s h
  obtain ⟨himage, hp, rfl⟩ := newCpu_cases h
  exact inv_of_not_faulted (ofImage_wf himage) (Nat.zero_le _) rfl rfl

/-! ## The snapshot (R275) -/

/-- Settles O58: each part is the state's own, and the memory is read address by address. -/
theorem snapshotShowsTheState : Obligations.SnapshotShowsTheState := by
  intro s
  refine ⟨rfl, rfl, rfl, rfl, rfl, rfl, rfl, rfl, rfl, ?length, fun a ha => ?byte, rfl, rfl⟩
  case length => rw [State.snapshot, Memory.toImage, List.length_map, List.length_range, memorySize]
  case byte =>
    have hrange : (List.range memorySize)[a]? = some a := List.getElem?_range ha
    rw [State.snapshot, Memory.toImage, List.getElem?_map, hrange, Option.map_some]

end Sys2Proof.Proofs.Construction
end

section
/-! SUPPORT. The assembler and the launch (R112, R117-R126, R129, R273, R293): what each pass keeps of the lines and
labels, the image of a listing, and the first step of a launched core. -/

namespace Sys2Proof.Proofs.Assembling
open Sys2Proof.Machine Sys2Proof.Proofs.Encoding Sys2Proof.Proofs.Stepping Sys2Proof.Proofs.Construction

/-! ## Labels (R118, R120, R123) -/

/-- The label table gives the name an address. -/
def Bound (labels : LabelTable) (name : Text) : Prop := (lookupLabel labels name).isSome = true

theorem bound_iff {labels : LabelTable} {name : Text} : Bound labels name ↔ ∃ addr, (name, addr) ∈ labels := by
  simp [Bound, lookupLabel]

/-- All that binding a line's label can do. -/
theorem bindLabel_cases {labels labels' : LabelTable} {addr : Nat} {label : Option Text}
    (h : bindLabel labels addr label = .ok labels') :
    (label = none ∧ labels' = labels) ∨
      ∃ name, label = some name ∧ ¬ Bound labels name ∧ labels' = labels ++ [(name, addr)] := by
  cases label with
  | none => cases h; exact .inl ⟨rfl, rfl⟩
  | some name =>
    simp only [bindLabel] at h
    split at h
    · cases h
    · cases h
      exact .inr ⟨name, rfl, ‹_›, rfl⟩

/-- Binding a line's label binds it, and no other name. -/
theorem bound_bindLabel_iff {labels labels' : LabelTable} {addr : Nat} {label : Option Text}
    (h : bindLabel labels addr label = .ok labels') (name : Text) :
    Bound labels' name ↔ Bound labels name ∨ label = some name := by
  rcases bindLabel_cases h with ⟨rfl, rfl⟩ | ⟨name', rfl, -, rfl⟩
  · simp
  · simp [bound_iff, exists_or, eq_comm]

/-! ## Lines (R113, R114) -/

/-- The preprocessed line holds the instruction `item`. -/
def HoldsItem (line : Text) (item : AsmItem) : Prop :=
  ∃ p mn args, parseLine line = .ok p ∧ p.body = some (mn, args) ∧ parseItem mn args = .ok item

theorem not_holdsItem {line : Text} {p : ParsedLine} (hp : parseLine line = .ok p) (hbody : p.body = none)
    (item : AsmItem) : ¬ HoldsItem line item := by
  rintro ⟨p', mn, args, hp', hbody', -⟩
  obtain rfl : p = p' := Except.ok.inj (hp.symm.trans hp')
  cases hbody.symm.trans hbody'

/-- A line holds one instruction only. -/
theorem holdsItem_iff {line : Text} {p : ParsedLine} {mn : Text} {args : List Text} {item item' : AsmItem}
    (hp : parseLine line = .ok p) (hbody : p.body = some (mn, args)) (hitem : parseItem mn args = .ok item) :
    HoldsItem line item' ↔ item' = item := by
  constructor
  · rintro ⟨p', mn', args', hp', hbody', hitem'⟩
    obtain rfl : p = p' := Except.ok.inj (hp.symm.trans hp')
    cases hbody.symm.trans hbody'
    exact Except.ok.inj (hitem'.symm.trans hitem)
  · rintro rfl
    exact ⟨p, mn, args, hp, hbody, hitem⟩

/-! ## The first pass (R118) -/

section FirstPass
variable {T : IsaTables}

/-- A first pass binds the label of its first line, and then goes through the later lines. -/
theorem firstPass_tail {l : Text × Text} {later : List (Text × Text)} {addr : Nat} {labels : LabelTable}
    {first : FirstPass} (h : firstPass T (l :: later) addr labels = .ok first) :
    ∃ p labels' addr' first', parseLine l.1 = .ok p ∧ bindLabel labels addr p.label = .ok labels' ∧
      firstPass T later addr' labels' = .ok first' := by
  obtain ⟨p, labels', hp, hbind, ⟨-, hrest⟩ | ⟨mn, args, item, size, rest, -, -, -, hrest, -⟩⟩ := firstPass_cons h
  · exact ⟨p, labels', _, _, hp, hbind, hrest⟩
  · exact ⟨p, labels', _, _, hp, hbind, hrest⟩

/-- Where a first pass goes through, so does the pass over its later lines, with no label lost on the way. -/
theorem firstPass_append {before later : List (Text × Text)} {addr : Nat} {labels : LabelTable} {first : FirstPass}
    (h : firstPass T (before ++ later) addr labels = .ok first) :
    ∃ labels' addr' first', firstPass T later addr' labels' = .ok first' ∧
      ∀ name, Bound labels name → Bound labels' name := by
  induction before generalizing addr labels first with
  | nil => exact ⟨labels, addr, first, h, fun _ => id⟩
  | cons line before ih =>
    obtain ⟨p, bound, _, _, -, hbind, hrest⟩ := firstPass_tail h
    obtain ⟨labels', addr', first', hfirst', hkeep⟩ := ih hrest
    exact ⟨labels', addr', first', hfirst', fun name hname =>
      hkeep name ((bound_bindLabel_iff hbind name).2 (.inl hname))⟩

/-- A first pass that gets past a line has bound its label, which was not bound before. -/
theorem bound_of_firstPass_cons {l : Text × Text} {later : List (Text × Text)} {addr : Nat} {labels : LabelTable}
    {first : FirstPass} (h : firstPass T (l :: later) addr labels = .ok first) {p : ParsedLine} {name : Text}
    (hp : parseLine l.1 = .ok p) (hname : p.label = some name) : ¬ Bound labels name ∧
      ∃ labels' addr' first', firstPass T later addr' labels' = .ok first' ∧ Bound labels' name := by
  obtain ⟨p', labels', addr', first', hp', hbind, hrest⟩ := firstPass_tail h
  obtain rfl : p = p' := Except.ok.inj (hp.symm.trans hp')
  refine ⟨?_, labels', addr', first', hrest, (bound_bindLabel_iff hbind name).2 (.inr hname)⟩
  rcases bindLabel_cases hbind with ⟨hnone, -⟩ | ⟨name', hname', hfree, -⟩
  · cases hname.symm.trans hnone
  · cases hname.symm.trans hname'
    exact hfree

/-- Every label of the table was there before or stands on a line. -/
theorem label_of_firstPass {lines : List (Text × Text)} {addr : Nat} {labels : LabelTable} {first : FirstPass}
    (h : firstPass T lines addr labels = .ok first) {name : Text} (hname : Bound first.labels name) :
    Bound labels name ∨ ∃ l ∈ lines, ∃ p, parseLine l.1 = .ok p ∧ p.label = some name := by
  induction lines generalizing addr labels first with
  | nil => cases h; exact .inl hname
  | cons line lines ih =>
    obtain ⟨p, bound, hp, hbind, hrest⟩ := firstPass_cons h
    have hcases : Bound bound name ∨ ∃ l ∈ lines, ∃ p, parseLine l.1 = .ok p ∧ p.label = some name := by
      rcases hrest with ⟨-, hrest⟩ | ⟨mn, args, item, size, rest, -, -, -, hrest, rfl⟩
      · exact ih hrest hname
      · exact ih hrest hname
    rcases hcases with hbound | ⟨l, hl, hlabel⟩
    · exact ((bound_bindLabel_iff hbind name).1 hbound).imp_right fun hlabel =>
        ⟨line, List.mem_cons_self, p, hp, hlabel⟩
    · exact .inr ⟨l, List.mem_cons_of_mem _ hl, hlabel⟩

/-- The items are exactly those of the lines that hold an instruction, each with the text of its line. -/
theorem mem_items_iff {lines : List (Text × Text)} {addr : Nat} {labels : LabelTable} {first : FirstPass}
    (h : firstPass T lines addr labels = .ok first) {item : AsmItem} {original : Text} :
    (item, original) ∈ first.items ↔ ∃ l ∈ lines, HoldsItem l.1 item ∧ original = l.2 := by
  induction lines generalizing addr labels first with
  | nil => cases h; simp
  | cons line lines ih =>
    obtain ⟨p, bound, hp, -, ⟨hbody, hrest⟩ | ⟨mn, args, item', size, rest, hbody, hitem, -, hrest, rfl⟩⟩ :=
      firstPass_cons h
    · simp [ih hrest, not_holdsItem hp hbody]
    · simp [ih hrest, holdsItem_iff hp hbody hitem]

end FirstPass

/-! ## The second pass (R119, R126) -/

section SecondPass
variable {T : IsaTables} {labels : LabelTable}

/-- A second pass that goes through has emitted every item. -/
theorem emitItem_of_mem_items {items : List (AsmItem × Text)} {addr : Nat} {listing : List ListingEntry}
    (h : secondPass T labels items addr = .ok listing) {x : AsmItem × Text} (hx : x ∈ items) :
    ∃ bytes, emitItem T labels x.1 = .ok bytes := by
  induction items generalizing addr listing with
  | nil => cases hx
  | cons y items ih =>
    obtain ⟨bytes, rest, hbytes, hrest, -⟩ := secondPass_cons h
    rcases List.mem_cons.1 hx with rfl | hx
    · exact ⟨bytes, hbytes⟩
    · exact ih hrest hx

/-- Every listing entry is an item's bytes with the text of its line. -/
theorem item_of_mem_listing {items : List (AsmItem × Text)} {addr : Nat} {listing : List ListingEntry}
    (h : secondPass T labels items addr = .ok listing) {e : ListingEntry} (he : e ∈ listing) :
    ∃ item, (item, e.text) ∈ items ∧ emitItem T labels item = .ok e.bytes := by
  induction items generalizing addr listing with
  | nil => cases h; cases he
  | cons x items ih =>
    obtain ⟨bytes, rest, hbytes, hrest, rfl⟩ := secondPass_cons h
    rcases List.mem_cons.1 he with rfl | he
    · exact ⟨x.1, List.mem_cons_self, hbytes⟩
    · obtain ⟨item, hitem, hemit⟩ := ih hrest he
      exact ⟨item, List.mem_cons_of_mem _ hitem, hemit⟩

/-- A listing entry starts where the entries before it end. -/
theorem addr_of_secondPass {items : List (AsmItem × Text)} {addr : Nat} {before after : List ListingEntry}
    {e : ListingEntry} (h : secondPass T labels items addr = .ok (before ++ e :: after)) :
    e.addr = addr + (listingCode before).length := by
  induction before generalizing items addr with
  | nil =>
    cases items with
    | nil => cases h
    | cons x items =>
      obtain ⟨bytes, rest, -, -, hlisting⟩ := secondPass_cons h
      cases hlisting
      rfl
  | cons e' before ih =>
    cases items with
    | nil => cases h
    | cons x items =>
      obtain ⟨bytes, rest, -, hrest, hlisting⟩ := secondPass_cons h
      cases hlisting
      rw [ih hrest]
      simp [listingCode, Nat.add_assoc]

/-- The two passes agree on the size of the code (R117, R125). -/
theorem codeEnd_eq {lines : List (Text × Text)} {addr : Nat} {bound : LabelTable} {first : FirstPass}
    {listing : List ListingEntry} (h : firstPass T lines addr bound = .ok first)
    (hlisting : secondPass T labels first.items addr = .ok listing) :
    first.codeEnd = addr + (listingCode listing).length := by
  induction lines generalizing addr bound first listing with
  | nil =>
    cases h
    cases hlisting
    rfl
  | cons line lines ih =>
    obtain ⟨p, bound', -, -, ⟨-, hrest⟩ | ⟨mn, args, item, size, rest, -, -, hsize, hrest, rfl⟩⟩ := firstPass_cons h
    · exact ih hrest hlisting
    · obtain ⟨bytes, listing', hbytes, hlisting', rfl⟩ := secondPass_cons hlisting
      obtain rfl : size = bytes.length := Except.ok.inj (hsize.symm.trans (itemSize_of_emitItem hbytes))
      calc rest.codeEnd
          = addr + bytes.length + (listingCode listing').length := ih hrest hlisting'
        _ = _ := by simp [listingCode, Nat.add_assoc]

end SecondPass

/-! ## The image (R124-R126) -/

theorem length_imageOf {code : List Byte} (h : code.length ≤ memorySize) : (imageOf code).length = memorySize := by
  rw [imageOf, List.length_append, List.length_replicate, Nat.add_sub_cancel' h]

theorem imageOf_getElem? {code : List Byte} {k : Nat} (h : code.length ≤ k) (hk : k < memorySize) :
    (imageOf code)[k]? = some 0x00 := by
  rw [imageOf, List.getElem?_append_right h, List.getElem?_replicate, if_pos (by omega)]

section Assembly
variable {T : IsaTables} {lines : List Text} {a : Assembly}

/-- The code of an assembly fills its image up to `code_end`. -/
theorem image_of_assembleWith (h : assembleWith T lines = .ok a) : a.codeEnd ≤ memorySize ∧
    (listingCode a.listing).length = a.codeEnd ∧ a.image = imageOf (listingCode a.listing) := by
  obtain ⟨first, listing, hfirst, hend, hlisting, rfl⟩ := assembleWith_ok h
  refine ⟨hend, ?_, rfl⟩
  rw [← Nat.zero_add (List.length _)]
  exact (codeEnd_eq hfirst hlisting).symm

theorem length_image_of_assembleWith (h : assembleWith T lines = .ok a) : a.image.length = memorySize := by
  obtain ⟨hend, hlen, himage⟩ := image_of_assembleWith h
  rw [himage, length_imageOf (hlen.trans_le hend)]

/-- The bytes of a listing entry stand in the image where the code before it ends. -/
theorem image_at_entry (h : assembleWith T lines = .ok a) {before after : List ListingEntry} {e : ListingEntry}
    (he : a.listing = before ++ e :: after) :
    (a.image.drop (listingCode before).length).take e.bytes.length = e.bytes := by
  obtain ⟨-, -, himage⟩ := image_of_assembleWith h
  have hcode : listingCode a.listing = listingCode before ++ (e.bytes ++ listingCode after) := by
    simp [he, listingCode]
  rw [himage, imageOf, hcode, List.append_assoc, List.drop_left, List.append_assoc, List.take_left]

theorem addr_of_assembleWith (h : assembleWith T lines = .ok a) {before after : List ListingEntry} {e : ListingEntry}
    (he : a.listing = before ++ e :: after) : e.addr = (listingCode before).length := by
  obtain ⟨first, listing, -, -, hlisting, rfl⟩ := assembleWith_ok h
  obtain rfl : listing = before ++ e :: after := he
  rw [addr_of_secondPass hlisting, Nat.zero_add]

/-- Each listing entry is the encoding of the instruction of a source line, a jump's label looked up. -/
theorem entry_of_assembleWith (h : assembleWith T lines = .ok a) {e : ListingEntry} (he : e ∈ a.listing) :
    e.text ∈ lines ∧ ∃ item i, HoldsItem (trim (cutComment e.text)) item ∧ resolveItem a.labels item = .ok i ∧
      encodeWith T i = some e.bytes := by
  obtain ⟨first, listing, hfirst, -, hlisting, rfl⟩ := assembleWith_ok h
  obtain ⟨item, hitem, hemit⟩ := item_of_mem_listing hlisting he
  obtain ⟨l, hl, hholds, htext⟩ := (mem_items_iff hfirst).1 hitem
  obtain ⟨hmem, hline⟩ := mem_preprocess hl
  obtain ⟨i, hresolve, hencode⟩ := emitItem_ok hemit
  rw [hline, ← htext] at hholds
  exact ⟨htext ▸ hmem, item, i, hholds, hresolve, hencode⟩

end Assembly

/-- Settles O51: the code is as long as `code_end` says, and the image fills up with zeros. -/
theorem assembledImageIsCodeThenZeros : Obligations.AssembledImageIsCodeThenZeros := by
  intro T lines a h
  obtain ⟨hend, hlen, himage⟩ := image_of_assembleWith h
  refine ⟨hend, length_image_of_assembleWith h, ?code, hlen, fun k hk hk' => ?zeros⟩
  case code =>
    rw [himage, imageOf, ← hlen, List.take_left]
    rfl
  case zeros =>
    rw [himage]
    exact imageOf_getElem? (hlen.trans_le hk) hk'

/-- Settles O52: the second pass counts the bytes it emits, and the first keeps each line's text. -/
theorem listingBytesEqualImageBytes : Obligations.ListingBytesEqualImageBytes := by
  intro T lines a h before e after he
  rw [addr_of_assembleWith h he]
  refine ⟨?sum, image_at_entry h he, (entry_of_assembleWith h (he ▸ List.mem_append_right _ List.mem_cons_self)).1⟩
  case sum =>
    rw [listingCode, List.length_flatten, List.map_map]
    rfl

/-- Settles O53: a listing entry is an encoding, and an encoding decodes to its instruction. -/
theorem assembledBytesDecodeToTheSourceInstruction : Obligations.AssembledBytesDecodeToTheSourceInstruction := by
  intro T lines a hT h e he
  obtain ⟨-, item, i, ⟨p, mn, args, hp, hbody, hitem⟩, hresolve, hencode⟩ := entry_of_assembleWith h he
  have hwf : i.wf T = true := by rw [← isSome_encodeWith, hencode, Option.isSome_some]
  exact ⟨p, mn, args, item, i, hp, hbody, hitem, hresolve, hwf, decodeWith_append (isEncoding_of_encodeWith hT hencode)⟩

/-! ## Errors (R120, R123) -/

/-- An assembly that does not answer fails. -/
theorem exists_error_of_not_ok {T : IsaTables} {lines : List Text} (h : ∀ a, assembleWith T lines ≠ .ok a) :
    ∃ e, assembleWith T lines = .error e := by
  cases ha : assembleWith T lines with
  | error e => exact ⟨e, rfl⟩
  | ok a => exact absurd ha (h a)

theorem bound_of_resolveItem_jump {labels : LabelTable} {c : JumpOp} {name : Text} {i : Instr}
    (h : resolveItem labels (.jump c name) = .ok i) : Bound labels name := by
  cases haddr : lookupLabel labels name with
  | none => simp [resolveItem, haddr] at h
  | some addr => rw [Bound, haddr, Option.isSome_some]

/-- Settles O54: the first definition stays bound up to the second, which then cannot be bound. -/
theorem duplicateLabelAbortsAssembly : Obligations.DuplicateLabelAbortsAssembly := by
  intro T lines name before between after l l' p p' hlines hp hname hp' hname'
  refine exists_error_of_not_ok fun a ha => ?_
  obtain ⟨first, -, hfirst, -⟩ := assembleWith_ok ha
  rw [hlines] at hfirst
  obtain ⟨_, _, _, hat, -⟩ := firstPass_append hfirst
  obtain ⟨-, _, _, _, hpast, hbound⟩ := bound_of_firstPass_cons hat hp hname
  obtain ⟨_, _, _, hat', hkeep⟩ := firstPass_append hpast
  exact (bound_of_firstPass_cons hat' hp' hname').1 (hkeep name hbound)

/-- Settles O55: the second pass looks up the label of every jump, and the first binds only the lines' labels. -/
theorem undefinedLabelAbortsAssembly : Obligations.UndefinedLabelAbortsAssembly := by
  intro T lines l p mn args c name hl hp hbody hitem hundefined
  refine exists_error_of_not_ok fun a ha => ?_
  obtain ⟨first, listing, hfirst, -, hlisting, -⟩ := assembleWith_ok ha
  have hmem : (AsmItem.jump c name, l.2) ∈ first.items :=
    (mem_items_iff hfirst).2 ⟨l, hl, ⟨p, mn, args, hp, hbody, hitem⟩, rfl⟩
  obtain ⟨bytes, hemit⟩ := emitItem_of_mem_items hlisting hmem
  obtain ⟨i, hresolve, -⟩ := emitItem_ok hemit
  rcases label_of_firstPass hfirst (bound_of_resolveItem_jump hresolve) with hnil | ⟨l', hl', p', hp', hlabel⟩
  · cases hnil
  · exact hundefined l' hl' p' hp' hlabel

/-! ## Tokens (R112) -/

/-- Settles O56: the sign only changes how the digits' number is taken modulo 256. -/
theorem minusNegatesAHexToken : Obligations.MinusNegatesAHexToken := by
  intro t k hk hsign
  have hdigits : hexToken t = (hexNatural t).map fun n => BitVec.ofNat 8 n := by
    unfold hexToken
    split
    · exact absurd rfl hsign
    · rfl
  rw [hdigits] at hk
  obtain ⟨n, hn, rfl⟩ := Option.map_eq_some_iff.1 hk
  rw [hexToken, hn]
  calc some (BitVec.ofInt 8 (-(n : Int)))
      = some (-BitVec.ofNat 8 n) := by rw [BitVec.ofInt_neg, BitVec.ofInt_natCast]

/-! ## The launch (R273, R293) -/

theorem toImage_eq_bytesAt (m : Memory) : m.toImage = m.bytesAt 0 memorySize := by
  simp only [Memory.toImage, Memory.bytesAt, Nat.zero_add]

theorem length_pos_of_isEncoding {T : IsaTables} {e : List Byte} {i : Instr} (h : IsEncoding T e i) : 0 < e.length := by
  obtain ⟨b, f, extra, rfl, -⟩ := h
  exact Nat.succ_pos _

/-- Settles O57: the first entry's bytes stand at address 0, below PEND, and are the encoding of its instruction. -/
theorem launchedCoreRunsTheFirstListedInstruction : Obligations.LaunchedCoreRunsTheFirstListedInstruction := by
  intro T lines a hT h
  obtain ⟨hend, hlen, -⟩ := image_of_assembleWith h
  have himage := length_image_of_assembleWith h
  refine ⟨_, newCpu_eq_next a.labels himage (Nat.lt_succ_of_le hend), Memory.toImage_ofImage himage, fun hnil => ?empty,
    fun e rest hcons => ?first⟩
  case empty =>
    rw [hnil] at hlen
    exact (State.status_halted_iff _).2 ⟨rfl, hlen.ge⟩
  case first =>
    obtain ⟨-, item, i, -, -, hencode⟩ := entry_of_assembleWith h (hcons ▸ List.mem_cons_self)
    have he := isEncoding_of_encodeWith hT hencode
    have hle : e.bytes.length ≤ a.codeEnd := by
      rw [← hlen, hcons]
      simp [listingCode]
    have hmem : (Memory.ofImage a.image).bytesAt 0 e.bytes.length = e.bytes := by
      calc (Memory.ofImage a.image).bytesAt 0 e.bytes.length
          = ((Memory.ofImage a.image).bytesAt 0 memorySize).take e.bytes.length :=
            (take_bytesAt _ _ (hle.trans hend)).symm
        _ = a.image.take e.bytes.length := by rw [← toImage_eq_bytesAt, Memory.toImage_ofImage himage]
        _ = e.bytes := image_at_entry (before := []) h hcons
    have hdecode := decodeWith_append he []
    rw [List.append_nil] at hdecode
    refine ⟨(State.status_running_iff _).2 ⟨rfl, (length_pos_of_isEncoding he).trans_le hle⟩, i, hdecode, ?_⟩
    exact stepWith_ok rfl (fetchInstr_of_isEncoding he hmem ((Nat.zero_add _).trans_le hle))

end Sys2Proof.Proofs.Assembling
end
